-- ==== Sys2Proof/Word.lean ====
section
/-! DEFINITION. The word types of the packer: the byte of the output stream, the 16-bit accumulator and DATA word,
and the 32-bit command and status words (00_scope.md R5, R7). -/

namespace Sys2Proof

/-- The unit of the output stream and of the sink: 8 bits (R5). -/
abbrev Byte := BitVec 8

/-- The accumulator value register and the DATA field: 16 bits (R5, R48). -/
abbrev Half := BitVec 16

/-- A command word or a status word: 32 bits, crossing its port whole (R41, R48). -/
abbrev Word := BitVec 32

end Sys2Proof
end

