-- ==== Sys2Proof/Config.lean ====
section
/-! DEFINITION. What the spec fixes once for the block (00_scope.md R5, R6), the reset value of the build parameter's
field, and the one free value of the model: the sink's answer where the state lists none. -/

namespace Sys2Proof.Config

/-- `ACC_W`: the width of the accumulator value register (R5, R6). -/
def accWidth : Nat := 16

/-- `MIN_LEN`: the smallest code length of WBITS (R5, R51). -/
def minLen : Nat := 1

/-- `MAX_LEN`: the largest code length of WBITS (R5, R51). -/
def maxLen : Nat := 16

/-- The byte that WMARK writes before its code (R6, R63). -/
def markerByte : Byte := 0xFF

/-- The bit-path byte after which a stuffing byte follows (R6, R69). -/
def stuffTrigger : Byte := 0xFF

/-- The stuffing byte (R6, R69). -/
def stuffByte : Byte := 0x00

/-- The smallest legal capacity `C` (R5, D16). -/
def minCapacity : Nat := 1

/-- The largest legal capacity `C`, so that LEVEL fits in 32 bits (R28, D16). -/
def maxCapacity : Nat := 2 ^ 32 - 1

/-- The capacity that `State.reset` carries. DESIGN CHOICE (unsafe where a claim rests on it, log 1): the spec leaves
`C` a build parameter (R5); no statement rests on this number, each is about every legal `capacity`. -/
def resetCapacity : Nat := 8

/-- FREE VALUE (log 2, safe): the count the sink answers to transaction number `i` with these request bytes, where
the state lists no answer for it. R37 puts it "under no law except `0 ≤ k ≤ n`"; it has no body, and the operation
that reads it keeps the bound. -/
opaque sinkAnswer (i : Nat) (request : List Byte) : Nat

end Sys2Proof.Config
end

