-- ==== Sys2Proof/Syntax.lean ====
section
/-! DEFINITION. The command set: one constructor per row of spec/opcode_table.json (30_encoding.md R49), holding the
operand bits the command uses (R52) and nothing else. -/

namespace Sys2Proof

/-- A command of packer command set, revision 1 (R1, R49). -/
inductive Instr where
  /-- WBYTE (R61): one raw byte, `DATA[7:0]`. -/
  | wbyte (b : Byte)
  /-- WWORD (R62): a 16-bit word, `DATA[15:0]`, sent high byte first. -/
  | wword (w : Half)
  /-- WMARK (R63): a marker code, `DATA[7:0]`, sent after `0xFF`. -/
  | wmark (code : Byte)
  /-- WBITS (R70): LEN and the whole DATA field; the code is DATA's low LEN bits (R53). -/
  | wbits (len : BitVec 5) (data : Half)
  /-- ALIGN (R74). -/
  | align
  /-- FLUSH (R64). -/
  | flush
  deriving DecidableEq, Repr

end Sys2Proof
end

