-- ==== Sys2Proof/WellFormed.lean ====
section
/-! DEFINITION. The one check the encoding puts on a command's operands: WBITS takes LEN in 1..16 (30_encoding.md
R51); every other field that is used may hold any value (R52, R54). -/

namespace Sys2Proof

/-- LEN of a WBITS command is legal: `MIN_LEN ≤ LEN ≤ MAX_LEN` (R51). -/
def legalLength (len : BitVec 5) : Bool :=
  decide (Config.minLen ≤ len.toNat) && decide (len.toNat ≤ Config.maxLen)

/-- The well-formed commands: those some legal word stands for (R51, R56). -/
def Instr.wf : Instr → Bool
  | .wbyte _ => true
  | .wword _ => true
  | .wmark _ => true
  | .wbits len _ => legalLength len
  | .align => true
  | .flush => true

end Sys2Proof
end

