-- ==== Sys2Proof/Decode.lean ====
section
/-! DEFINITION. Decoding, total on all 2^32 words and refusing by name (30_encoding.md R48–R56), and after it the
encoder, which writes RSV and every field an OP does not use as zero (R59; log 11 for WBITS's unused DATA bits). -/

namespace Sys2Proof

/-- OP, bits 31:28 (R48). -/
def opField (w : Word) : BitVec 4 := w.extractLsb' 28 4

/-- RSV, bits 27:21 (R48, R50). -/
def rsvField (w : Word) : BitVec 7 := w.extractLsb' 21 7

/-- LEN, bits 20:16 (R48, R51). -/
def lenField (w : Word) : BitVec 5 := w.extractLsb' 16 5

/-- DATA, bits 15:0 (R48). -/
def dataField (w : Word) : Half := w.extractLsb' 0 16

/-- The byte operand of WBYTE and WMARK, `DATA[7:0]` (R54). -/
def byteOperand (data : Half) : Byte := data.extractLsb' 0 8

/-- Why a word is illegal: R56's three cases, in the order in which R91 checks them. -/
inductive DecodeError where
  /-- RSV is not zero (R50). -/
  | reservedBits
  /-- OP is 0x6..0xF (R49, R57). -/
  | reservedOp
  /-- WBITS with LEN 0 or LEN ≥ 17 (R51). -/
  | lengthOutOfRange
  deriving DecidableEq, Repr

/-- The command a word stands for (R55, less its first line, which reads the state). -/
def decode (w : Word) : Except DecodeError Instr :=
  if rsvField w ≠ 0 then .error .reservedBits
  else
    match (opField w).toNat with
    | 0 => .ok (.wbyte (byteOperand (dataField w)))
    | 1 => .ok (.wword (dataField w))
    | 2 => .ok (.wmark (byteOperand (dataField w)))
    | 3 => if legalLength (lenField w) then .ok (.wbits (lenField w) (dataField w)) else .error .lengthOutOfRange
    | 4 => .ok .align
    | 5 => .ok .flush
    | _ => .error .reservedOp

/-- A command as an option: what `decode` reads, less the reason of a refusal. -/
def decode? (w : Word) : Option Instr :=
  match decode w with
  | .ok i => some i
  | .error _ => none

/-- The word with these fields and RSV zero (R48). -/
def packWord (op : BitVec 4) (len : BitVec 5) (data : Half) : Word :=
  op.setWidth 32 <<< 28 ||| len.setWidth 32 <<< 16 ||| data.setWidth 32

/-- OP of a command (R49). -/
def opcodeOf : Instr → BitVec 4
  | .wbyte _ => 0x0
  | .wword _ => 0x1
  | .wmark _ => 0x2
  | .wbits _ _ => 0x3
  | .align => 0x4
  | .flush => 0x5

/-- The word of a command, RSV and every field its OP does not use zero: the assembler's word wherever R59 gives one. For
a WBITS term R59 gives none for, with LEN outside 1..16 or DATA at or above 2^LEN, LEN and DATA are written as they are
(log 10, log 11). -/
def encode : Instr → Word
  | .wbyte b => packWord (opcodeOf (.wbyte b)) 0 (b.setWidth 16)
  | .wword w => packWord (opcodeOf (.wword w)) 0 w
  | .wmark code => packWord (opcodeOf (.wmark code)) 0 (code.setWidth 16)
  | .wbits len data => packWord (opcodeOf (.wbits len data)) len data
  | .align => packWord (opcodeOf .align) 0 0
  | .flush => packWord (opcodeOf .flush) 0 0

/-- The command whose bits are `w`, numbered as spec/opcode_table.json numbers them. A command is exactly one 32-bit
word (R48, R58) with no byte order (R41), so the number is the word (log 9); bits at or above `nbits` are zero, and a
number that does not fit in one word is no command. -/
def decodeTableWord (nbits w : Nat) : Option Instr :=
  if w < 2 ^ nbits ∧ w < 2 ^ 32 then decode? (BitVec.ofNat 32 w) else none

end Sys2Proof
end

