-- ==== Sys2Proof/Machine/State.lean ====
section
/-! DEFINITION. The packer's state as plain data (10_state.md), the environment's part that its step reads or writes
(the commands to come, the sink's answers, the transactions so far), the reasons a step can stop, and the state after
reset (R31). -/

namespace Sys2Proof.Machine

/-- The output buffer's bytes: (offset, byte) cells, offsets strictly rising, none equal to what an unlisted offset
reads as (10_state.md R21; log 6). -/
abbrev Memory := List Host.Cell

/-- One sink transaction: the bytes of the request and the count the sink answered (R14, R37). -/
structure Transaction where
  /-- The bytes offered, `storage[0:n]` (R34). -/
  request : List Byte
  /-- The accepted count `k`; the accepted bytes are the first `k` (R37). -/
  accepted : Nat
  deriving DecidableEq, Repr

/-- What the host can do to the block (70_reset_and_hazards.md R114). -/
inductive HostEvent where
  /-- One 32-bit word on the command port, after the previous command has completed (R12, R105). -/
  | command (w : Word)
  /-- Reset, between two commands (R100). -/
  | reset
  /-- Reset while the command `w` is executing: the spec gives it no meaning (R102). -/
  | resetInside (w : Word)
  /-- The word `w` presented while another command is executing: the spec gives it no meaning (R105, R114, D3). -/
  | commandInside (w : Word)
  deriving DecidableEq, Repr

/-- The error causes the packer raises (60_exceptions.md R85). -/
inductive ErrorCause where
  /-- The sink accepted fewer bytes than offered (R87). -/
  | sinkWrite
  /-- A word R56 lists as illegal (R88). -/
  | illegalCommand
  deriving DecidableEq, Repr

/-- Why the machine stops with a fault. -/
inductive Fault where
  /-- Raised by `emit` and `flushBuffer` where the access is at an offset of the output buffer that does not exist
  (at or above `C`; R21, R32). SAFE: R33 says that `Emit` is never called so, and no state that meets the invariant
  reaches it (log 7). -/
  | bufferOverrun
  deriving DecidableEq, Repr

/-- Why the machine gives a host event no meaning. -/
inductive Refusal where
  /-- Raised by `exec` alone, for a command that has no meaning yet. SAFE: the machine stops. -/
  | notModelled (mnemonic : String)
  /-- Raised by the command port for a command before the first reset: "a model refuses commands issued then" (R103).
  SAFE: the machine stops (log 5). -/
  | beforeReset
  /-- Raised by the command port for a reset inside a command: "A model refuses such a run" (R102).
  SAFE: the machine stops (log 8). -/
  | resetInsideCommand
  /-- Raised by the command port for a command presented while another executes: an unmodelled case of R114, "refused"
  by D3. SAFE: the machine stops (log 8). -/
  | commandInsideCommand
  deriving DecidableEq, Repr

/-- The state. The first seven fields are the packer's own (10_state.md); the others are a parameter or the
environment's. -/
structure State where
  /-- `acc_value`: the pending bits, left-justified (R17). -/
  accValue : Half
  /-- `acc_len`: how many bits are pending (R18). -/
  accLen : Nat
  /-- `storage`: the output buffer's bytes (R21). -/
  storage : Memory
  /-- `cursor`: the offset of the next byte, and the count of bytes held (R22). -/
  cursor : Nat
  /-- `err`: the sticky error flag (R24). -/
  err : Bool
  /-- `err_code`: the cause of the first error since reset (R25). -/
  errCode : BitVec 3
  /-- `err_info`: the information of the first error (R26). -/
  errInfo : Word
  /-- The build parameter `C` (R5); no step changes it (log 1). -/
  capacity : Nat
  /-- Whether a reset has been applied (R103; log 5). -/
  booted : Bool
  /-- What the host will do next, the first event at the head (R12; log 4). -/
  hostQueue : List HostEvent
  /-- What the sink will answer next, the first answer at the head; past the end the answer is the free value
  `Config.sinkAnswer` (R37; log 2). -/
  sinkAnswers : List Nat
  /-- The sink transactions so far, oldest first: the observation of R14 (log 3). -/
  sinkLog : List Transaction
  /-- How many of them lie before the last reset, where the session began (R38; log 3). -/
  sessionStart : Nat
  deriving DecidableEq, Repr

/-- The state right after reset: the values of R31 and R100, the storage with nothing listed, and the model's own
fields at the values log 1 to 6 name. -/
def State.reset : State where
  accValue := 0
  accLen := 0
  storage := []
  cursor := 0
  err := false
  errCode := 0
  errInfo := 0
  capacity := Config.resetCapacity
  booted := true
  hostQueue := []
  sinkAnswers := []
  sinkLog := []
  sessionStart := 0

/-- How a primitive of R10 ends. -/
inductive Progress where
  /-- It completes, and the command goes on from this state. -/
  | done (s : State)
  /-- A `raise` ended the command with this state (R86). -/
  | raised (s : State)
  /-- It asked for a byte that does not exist. -/
  | broken (f : Fault)
  deriving DecidableEq, Repr

end Sys2Proof.Machine
end

