-- ==== Sys2Proof/Machine/Flags.lean ====
section
/-! DEFINITION. The error state's numbers (10_state.md R25) and the three read-only status words computed from the
state (R27–R29). The block has no condition codes. -/

namespace Sys2Proof.Machine

/-- The number of an error cause (R25, R85). -/
def causeCode : ErrorCause → BitVec 3
  | .sinkWrite => 1
  | .illegalCommand => 2

/-- STATUS (R27): ERR in bit 0, ERRCODE in 3:1, ACC_LEN in 12:8, ACC_VALUE in 31:16, zeros elsewhere. -/
def statusWord (s : State) : Word :=
  (BitVec.ofBool s.err).setWidth 32 ||| s.errCode.setWidth 32 <<< 1 |||
    (BitVec.ofNat 5 s.accLen).setWidth 32 <<< 8 ||| s.accValue.setWidth 32 <<< 16

/-- LEVEL (R28): the number of bytes held. -/
def levelWord (s : State) : Word := BitVec.ofNat 32 s.cursor

/-- ERRINFO (R29). -/
def errInfoWord (s : State) : Word := s.errInfo

end Sys2Proof.Machine
end

