-- ==== Sys2Proof/Machine/Operands.lean ====
section
/-! DEFINITION. The operand forms and the bit arithmetic of the commands (30_encoding.md R52–R54; 00_scope.md R7;
41_bit_path.md R70, R74): masks, truncation, the two bytes of a word, and the four values WBITS computes. -/

namespace Sys2Proof.Machine

/-- `mask(n) = 2^n − 1`, the low `n` bits (R7). -/
def mask (n : Nat) : Nat := 2 ^ n - 1

/-- `ones(n) = 2^n − 1`, `n` one-bits (R7). -/
def ones (n : Nat) : Nat := 2 ^ n - 1

/-- `trunc16(x) = x mod 2^16` (R7). -/
def trunc16 (x : Nat) : Half := BitVec.ofNat 16 x

/-- Bits 15:8 of a word, the byte that goes out first (R39, R40, R54). -/
def highByte (w : Half) : Byte := w.extractLsb' 8 8

/-- Bits 7:0 of a word (R54). -/
def lowByte (w : Half) : Byte := w.extractLsb' 0 8

/-- The WBITS code, `DATA & mask(LEN)`, right-justified (R53). -/
def codeOperand (len : BitVec 5) (data : Half) : Nat := data.toNat &&& mask len.toNat

/-- `combined = acc_len + len − 16`, a mathematical integer (R70, R7). -/
def combinedLength (accLen len : Nat) : Int := (accLen : Int) + (len : Int) - (Config.accWidth : Int)

/-- The 16-bit word WBITS emits when `combined ≥ 0`: `acc_value | (code >> combined)` (R70). -/
def joinedWord (accValue : Half) (code : Nat) (combined : Int) : Half :=
  accValue ||| trunc16 (code >>> combined.toNat)

/-- What WBITS keeps of the code when `combined ≥ 0`: `trunc16(code << (16 − combined))` (R70). -/
def keptBits (code : Nat) (combined : Int) : Half :=
  trunc16 (code <<< ((Config.accWidth : Int) - combined).toNat)

/-- The accumulator WBITS leaves when `combined < 0`: `acc_value | (code << (−combined))` (R70, conflict C2). -/
def mergedBits (accValue : Half) (code : Nat) (combined : Int) : Half :=
  accValue ||| trunc16 (code <<< (-combined).toNat)

/-- How many one-bits ALIGN pads with: `8 − (acc_len mod 8)`, 1 to 8 (R74). -/
def paddingLength (accLen : Nat) : Nat := 8 - accLen % 8

end Sys2Proof.Machine
end

