-- ==== Sys2Proof/Machine/Ops.lean ====
section
/-! DEFINITION. The named operations over the output buffer, the sink and the error state: one definition per
primitive of 00_scope.md R10, each written from the one rule that defines it. -/

namespace Sys2Proof.Machine

/-! ### The output buffer's bytes -/

/-- What an offset that is not listed reads as. DESIGN CHOICE (log 6): the spec leaves these bytes any value and
unobservable (R21, R31, U1). -/
def Memory.unlisted : Byte := 0x00

/-- `storage[a]` (R9). -/
def Memory.read : Memory → Nat → Byte
  | [], _ => Memory.unlisted
  | (k, c) :: rest, a => if k = a then c else Memory.read rest a

/-- `storage[a] <- b` (R9), keeping the canonical form. -/
def Memory.write : Memory → Nat → Byte → Memory
  | [], a, b => if b = Memory.unlisted then [] else [(a, b)]
  | (k, c) :: rest, a, b =>
    if k < a then (k, c) :: Memory.write rest a b
    else
      let above := if k = a then rest else (k, c) :: rest
      if b = Memory.unlisted then above else (a, b) :: above

/-- `for i in 0..n-1: storage[i] <- 0x00` (R34). -/
def Memory.clear (m : Memory) : Nat → Memory
  | 0 => m
  | n + 1 => Memory.write (Memory.clear m n) n 0x00

/-- `storage[0:n]` (R8, R9). -/
def Memory.slice (m : Memory) (n : Nat) : List Byte := (List.range n).map (Memory.read m)

/-- The canonical form: offsets strictly rising, and no cell equal to what an unlisted offset reads as. -/
def Memory.wf : Memory → Bool
  | [] => true
  | (k, c) :: rest => decide (c ≠ Memory.unlisted) && rest.all (fun cell => decide (k < cell.1)) && Memory.wf rest

/-! ### The named updates of the state -/

/-- Write the accumulator pair (R17, R18). -/
def setAcc (s : State) (value : Half) (len : Nat) : State :=
  { s with accValue := value, accLen := len }

/-- `storage[cursor] <- b; cursor <- cursor + 1` (R33). -/
def storeByte (s : State) (b : Byte) : State :=
  { s with storage := Memory.write s.storage s.cursor b, cursor := s.cursor + 1 }

/-- The held bytes are cleared and the cursor returns to 0: the end of a successful flush (R34). -/
def emptyBuffer (s : State) : State :=
  { s with storage := Memory.clear s.storage s.cursor, cursor := 0 }

/-- A sink transaction enters the observation, and its answer is used up (R14, R37). -/
def recordTransaction (s : State) (request : List Byte) (k : Nat) : State :=
  { s with sinkAnswers := s.sinkAnswers.tail, sinkLog := s.sinkLog ++ [⟨request, k⟩] }

/-- `raise E(info)`, the one way into the error state (R86): err, err_code and err_info are written and every other
write stands. The caller ends the command. -/
def raiseError (cause : ErrorCause) (info : Word) (s : State) : State :=
  { s with err := true, errCode := causeCode cause, errInfo := info }

/-- The reset event, the one way out of the error state (R93, R100): the packer's state takes the values of R31, held
bytes and pending bits are lost, no transaction is made (R101), and a new session begins (R38). The parameter and the
environment's queues are untouched. -/
def resetEvent (s : State) : State :=
  { s with
    accValue := State.reset.accValue, accLen := State.reset.accLen
    storage := State.reset.storage, cursor := State.reset.cursor
    err := State.reset.err, errCode := State.reset.errCode, errInfo := State.reset.errInfo
    booted := true, sessionStart := s.sinkLog.length }

/-- The host's next event is taken from the queue (R12). -/
def dropEvent (s : State) : State :=
  { s with hostQueue := s.hostQueue.tail }

/-! ### The sink -/

/-- What the sink answers before the law of R37 is applied: the next listed answer, or the free value. -/
def offeredAnswer (s : State) (request : List Byte) : Nat :=
  match s.sinkAnswers with
  | k :: _ => k
  | [] => Config.sinkAnswer s.sinkLog.length request

/-- The accepted count `k` of `SinkWrite(request)`: the offered answer held to R37's law, `0 ≤ k ≤ n`. -/
def sinkAnswer (s : State) (request : List Byte) : Nat := min (offeredAnswer s request) request.length

/-! ### Sequencing -/

/-- Program order inside a command (R9): what follows a `raise` does not run (R86). -/
def Progress.andThen (p : Progress) (next : State → Progress) : Progress :=
  match p with
  | .done s => next s
  | .raised s => .raised s
  | .broken f => .broken f

/-- The outcome of a whole command: a raised error is a next state, the sticky error state (R86, R90). -/
def Progress.outcome : Progress → Host.Outcome State Fault Refusal
  | .done s => .next s
  | .raised s => .next s
  | .broken f => .fault f

/-- Every command body runs only while `err = 0`; otherwise the command is accepted and discarded (R55, R90). -/
def runCommand (body : State → Progress) (s : State) : Host.Outcome State Fault Refusal :=
  if s.err then .next s else (body s).outcome

/-! ### The primitives of R10 -/

/-- `FlushBuffer()` (R34, R35). A cursor beyond `C` would name bytes that do not exist (log 7). -/
def flushBuffer (s : State) : Progress :=
  if s.cursor = 0 then .done s
  else if s.capacity < s.cursor then .broken .bufferOverrun
  else
    let request := Memory.slice s.storage s.cursor
    let k := sinkAnswer s request
    let s1 := recordTransaction s request k
    if k < s.cursor then .raised (raiseError .sinkWrite (BitVec.ofNat 32 k) s1)
    else .done (emptyBuffer s1)

/-- `Emit(b)` (R33). At a cursor not below `C` there is no byte to write (log 7). -/
def emit (b : Byte) (s : State) : Progress :=
  if s.capacity ≤ s.cursor then .broken .bufferOverrun
  else if s.cursor + 1 = s.capacity then flushBuffer (storeByte s b)
  else .done (storeByte s b)

/-- `EmitStuffed(b)` (R69). -/
def emitStuffed (b : Byte) (s : State) : Progress :=
  (emit b s).andThen fun s1 => if b = Config.stuffTrigger then emit Config.stuffByte s1 else .done s1

/-- The body of WBITS, shared with ALIGN (R70, R74). The accumulator is written only after both bytes are out. -/
def writeBits (len code : Nat) (s : State) : Progress :=
  let combined := combinedLength s.accLen len
  if 0 ≤ combined then
    let word := joinedWord s.accValue code combined
    (emitStuffed (highByte word) s).andThen fun s1 =>
      (emitStuffed (lowByte word) s1).andThen fun s2 =>
        .done (setAcc s2 (keptBits code combined) combined.toNat)
  else .done (setAcc s (mergedBits s.accValue code combined) (s.accLen + len))

/-- ALIGN's last part: exactly 8 pending bits go out as one more stuffed byte (R74, D18). -/
def flushPendingByte (s : State) : Progress :=
  if s.accLen = 8 then
    (emitStuffed (highByte s.accValue) s).andThen fun s1 => .done (setAcc s1 0 0)
  else .done s

/-- The body of ALIGN (R74). -/
def alignBits (s : State) : Progress :=
  (writeBits (paddingLength s.accLen) (ones (paddingLength s.accLen)) s).andThen flushPendingByte

/-- An illegal word: ILLEGAL_COMMAND with the word as information, before any other state change (R56, R88). -/
def illegalCommand (w : Word) (s : State) : Progress :=
  .raised (raiseError .illegalCommand w s)

end Sys2Proof.Machine
end

