-- ==== Sys2Proof/Machine/BitPath.lean ====
section
/-! DEFINITION. The bit-path commands (41_bit_path.md R69–R80): every byte goes out through `EmitStuffed`. -/

namespace Sys2Proof.Machine

/-- WBITS: the code `DATA & mask(LEN)` joins the bit stream (R70, R53). A LEN outside 1..16 is ILLEGAL_COMMAND (R51);
`decode` refuses such a word, and here every field of the word is an operand, so the refused word is the one `encode`
gives (log 10). -/
def execWbits (len : BitVec 5) (data : Half) (s : State) : Host.Outcome State Fault Refusal :=
  runCommand
    (if legalLength len then writeBits len.toNat (codeOperand len data)
      else illegalCommand (encode (.wbits len data))) s

/-- ALIGN: pad with one-bits to a byte boundary and send every pending bit out (R74). -/
def execAlign (s : State) : Host.Outcome State Fault Refusal :=
  runCommand alignBits s

end Sys2Proof.Machine
end

