-- ==== Sys2Proof/Machine/BytePath.lean ====
section
/-! DEFINITION. The byte-path commands and FLUSH (40_byte_path.md R61–R68): raw bytes, never stuffed (R65), the
accumulator neither read nor written (R66). -/

namespace Sys2Proof.Machine

/-- WBYTE: `Emit(b)` (R61). -/
def execWbyte (b : Byte) (s : State) : Host.Outcome State Fault Refusal :=
  runCommand (emit b) s

/-- WWORD: the high byte, then the low byte (R62, R39). -/
def execWword (w : Half) (s : State) : Host.Outcome State Fault Refusal :=
  runCommand (fun s0 => (emit (highByte w) s0).andThen (emit (lowByte w))) s

/-- WMARK: `0xFF`, then the code, raw (R63). -/
def execWmark (code : Byte) (s : State) : Host.Outcome State Fault Refusal :=
  runCommand (fun s0 => (emit Config.markerByte s0).andThen (emit code)) s

/-- FLUSH: `FlushBuffer()` (R64). -/
def execFlush (s : State) : Host.Outcome State Fault Refusal :=
  runCommand flushBuffer s

end Sys2Proof.Machine
end

