-- ==== Sys2Proof/Machine/Dispatch.lean ====
section
/-! DEFINITION. Which meaning runs for which command: one arm per row of spec/opcode_table.json (R49, R55). -/

namespace Sys2Proof.Machine

def exec (i : Instr) (s : State) : Host.Outcome State Fault Refusal :=
  match i with
  | .wbyte b => Sys2Proof.Machine.execWbyte b s
  | .wword w => Sys2Proof.Machine.execWword w s
  | .wmark code => Sys2Proof.Machine.execWmark code s
  | .wbits len data => Sys2Proof.Machine.execWbits len data s
  | .align => Sys2Proof.Machine.execAlign s
  | .flush => Sys2Proof.Machine.execFlush s

end Sys2Proof.Machine
end

