-- ==== Sys2Proof/Machine/Port.lean ====
section
/-! DEFINITION. The command port: what the block does with one command word (30_encoding.md R55) and with each event
of the host (70_reset_and_hazards.md R114), over the meaning of a command as an argument. -/

namespace Sys2Proof.Machine

/-- `Execute(w)` (R55): discarded while `err = 1`, refused with ILLEGAL_COMMAND if illegal, dispatched otherwise.
`run` is the meaning of a command. -/
def executeWord (run : Instr → State → Host.Outcome State Fault Refusal) (w : Word) (s : State) :
    Host.Outcome State Fault Refusal :=
  if s.err then .next s
  else
    match decode w with
    | .ok i => run i s
    | .error _ => runCommand (illegalCommand w) s

/-- One event of the host, already taken from the queue (R102, R103, R105, R114). -/
def handleEvent (run : Instr → State → Host.Outcome State Fault Refusal) (e : HostEvent) (s : State) :
    Host.Outcome State Fault Refusal :=
  match e with
  | .command w => if s.booted then executeWord run w s else .refused .beforeReset
  | .reset => .next (resetEvent s)
  | .resetInside _ => .refused .resetInsideCommand
  | .commandInside _ => .refused .commandInsideCommand

/-- One step of the block: the host's next event, or nothing where the host does nothing, for between commands the
block "is idle with all state held" (R99). -/
def portStep (run : Instr → State → Host.Outcome State Fault Refusal) (s : State) :
    Host.Outcome State Fault Refusal :=
  match s.hostQueue with
  | [] => .next s
  | e :: _ => handleEvent run e (dropEvent s)

/-- The word `w` stands on the command port as the host's very next event (R55; log 4). -/
def presentCommand (s : State) (w : Word) : State :=
  { s with hostQueue := .command w :: s.hostQueue }

end Sys2Proof.Machine
end

