-- ==== Sys2Proof/Machine/Step.lean ====
section
/-! DEFINITION. The step: the host's next event handled with `exec` as the meaning of a command (R12), and the host's
way to put one command word next. -/

namespace Sys2Proof.Machine

/-- `Execute(w)` with this machine's commands (R55). -/
def execute (w : Word) (s : State) : Host.Outcome State Fault Refusal := executeWord exec w s

/-- One step (R12, R114). -/
def step (s : State) : Host.Outcome State Fault Refusal := portStep exec s

/-- `s` with the command whose bits are `w` (those at or above `nbits` zero) next on the command port. -/
def State.withFetchWord (s : State) (nbits w : Nat) : State :=
  presentCommand s (BitVec.ofNat 32 (w % 2 ^ nbits))

end Sys2Proof.Machine
end

