-- ==== Sys2Proof/Safety.lean ====
section
/-! DEFINITION. The terms claims are stated in: the invariant of the state (10_state.md R19, R20, R23–R26), the sink
stream and the bytes appended so far (R38, R45), bit strings (R8, R71, R76), stuffing (R72, R73), and what a command
appends and leaves pending when the sink accepts everything. -/

namespace Sys2Proof.Machine

/-! ### What the block holds and what the sink has -/

/-- The held bytes, `storage[0:cursor]`, not yet delivered (R30). -/
def heldBytes (s : State) : List Byte := Memory.slice s.storage s.cursor

/-- The transactions of the session: those since the last reset (R38). -/
def session (s : State) : List Transaction := s.sinkLog.drop s.sessionStart

/-- The sink took every byte of the request: `k = n` (R37). -/
def Transaction.complete (t : Transaction) : Bool := decide (t.accepted = t.request.length)

/-- The accepted bytes, `s[0:k]` (R37). -/
def Transaction.acceptedBytes (t : Transaction) : List Byte := t.request.take t.accepted

/-- The sink stream (R38). -/
def sinkStream (s : State) : List Byte := (session s).flatMap Transaction.acceptedBytes

/-- Every byte passed to `Emit` in the session: those of the complete transactions, then the held ones. A failed
transaction's bytes are still held (R87). -/
def appendedBytes (s : State) : List Byte :=
  ((session s).filter Transaction.complete).flatMap Transaction.request ++ heldBytes s

/-! ### The invariant -/

/-- `C` is a legal capacity (R5, D16). -/
abbrev capacityOk (s : State) : Prop :=
  Config.minCapacity ≤ s.capacity ∧ s.capacity ≤ Config.maxCapacity

/-- At most 15 bits are pending (R20), and the bits below them are zero (R19). -/
abbrev accumulatorOk (s : State) : Prop :=
  s.accLen ≤ 15 ∧ s.accValue.toNat % 2 ^ (16 - s.accLen) = 0

/-- The cursor's range (R23), and storage in canonical form inside the buffer (R21). -/
abbrev bufferOk (s : State) : Prop :=
  s.cursor ≤ s.capacity ∧ (s.err = false → s.cursor < s.capacity) ∧
    Memory.wf s.storage = true ∧ ∀ cell ∈ s.storage, cell.1 < s.capacity

/-- The error fields agree with each other and hold only produced values (R24–R26). -/
abbrev errorOk (s : State) : Prop :=
  (s.err = false → s.errCode = 0 ∧ s.errInfo = 0) ∧ (s.err = true → s.errCode = 1 ∨ s.errCode = 2)

/-- The session's last transaction is the partial one that SINK_WRITE reports, and its bytes are still held (R26, R87). -/
def lastIsReported (s : State) : Bool :=
  match (session s).getLast? with
  | some t =>
    decide (t.accepted < t.request.length) && decide (s.errInfo = BitVec.ofNat 32 t.accepted) &&
      decide (t.request = heldBytes s)
  | none => false

/-- Every transaction obeys R37; all of the session are complete, but for the last one after SINK_WRITE (R38, R87). -/
abbrev sinkOk (s : State) : Prop :=
  s.sessionStart ≤ s.sinkLog.length ∧
    (∀ t ∈ s.sinkLog, 1 ≤ t.request.length ∧ t.request.length ≤ s.capacity ∧ t.accepted ≤ t.request.length) ∧
    (s.errCode ≠ 1 → ∀ t ∈ session s, t.complete = true) ∧
    (s.errCode = 1 → (∀ t ∈ (session s).dropLast, t.complete = true) ∧ lastIsReported s = true)

/-- The invariant of the packer, at reset and between commands. -/
abbrev State.Inv (s : State) : Prop :=
  capacityOk s ∧ accumulatorOk s ∧ bufferOk s ∧ errorOk s ∧ sinkOk s

/-! ### The sink's answers as a premise (R37) -/

/-- The answer the sink offers to the `j`-th transaction from now, if it carries these bytes. -/
def answerAhead (s : State) (j : Nat) (request : List Byte) : Nat :=
  match s.sinkAnswers[j]? with
  | some k => k
  | none => Config.sinkAnswer (s.sinkLog.length + j) request

/-- The sink will accept every byte of the next `n` transactions, whatever they carry. -/
def acceptsNext (s : State) (n : Nat) : Prop :=
  ∀ j, j < n → ∀ request : List Byte, request.length ≤ s.capacity → request.length ≤ answerAhead s j request

/-! ### Bit strings (R8) -/

/-- `bitstr(v, n)`: the low `n` bits of `v`, most significant first (R8). -/
def bitstr (v n : Nat) : List Bool := (List.range n).map fun i => v.testBit (n - 1 - i)

/-- The number a bit string stands for, first bit most significant. -/
def bitsValue (bits : List Bool) : Nat := bits.foldl (fun v b => 2 * v + b.toNat) 0

/-- The whole bytes of a bit string, first bit of each in bit 7 (R40). -/
def bitsToBytes (bits : List Bool) : List Byte :=
  (List.range (bits.length / 8)).map fun i => BitVec.ofNat 8 (bitsValue ((bits.drop (8 * i)).take 8))

/-- The bits of a byte sequence, each byte most significant bit first (R40). -/
def bytesToBits (bytes : List Byte) : List Bool := bytes.flatMap fun b => bitstr b.toNat 8

/-- The pending bits, `P` of R71. -/
def pendingBits (s : State) : List Bool := bitstr (s.accValue.toNat >>> (16 - s.accLen)) s.accLen

/-! ### Stuffing (R72, R73) -/

/-- The bytes after stuffing: each `0xFF` is followed by one `0x00`, no other byte by anything (R72). -/
def stuffed (bytes : List Byte) : List Byte := bytes.flatMap fun b => if b = 0xFF then [0xFF, 0x00] else [b]

/-- `Destuff`, scanning left to right; `skip` says that the byte before was a `0xFF` (R73). -/
def destuffFrom : Bool → List Byte → List Byte
  | _, [] => []
  | true, _ :: rest => destuffFrom false rest
  | false, b :: rest => b :: destuffFrom (decide (b = 0xFF)) rest

/-- `Destuff(E)`: the byte after each `0xFF` is dropped (R73). -/
def destuff (bytes : List Byte) : List Byte := destuffFrom false bytes

/-! ### What a command appends and leaves pending, in bit strings (R61–R64, R71, R76) -/

/-- The bit stream WBITS packs from: the pending bits, then the code's (R71). -/
def joinedBits (len : BitVec 5) (data : Half) (s : State) : List Bool :=
  pendingBits s ++ bitstr data.toNat len.toNat

/-- The bit stream ALIGN sends: the pending bits, then one-bits to the next byte boundary, at least one (R76). -/
def paddedBits (s : State) : List Bool :=
  pendingBits s ++ List.replicate (8 - (pendingBits s).length % 8) true

/-- The bits a command adds to the bit stream: WBITS its code (R71, R53), ALIGN its one-bits (R76). -/
def addedBits : Instr → State → List Bool
  | .wbits len data, _ => bitstr (data.toNat % 2 ^ len.toNat) len.toNat
  | .align, s => List.replicate (8 - s.accLen % 8) true
  | .wbyte _, _ => []
  | .wword _, _ => []
  | .wmark _, _ => []
  | .flush, _ => []

/-- The bytes a command passes to `Emit`, in order, if no error ends it. -/
def emittedBytes : Instr → State → List Byte
  | .wbyte b, _ => [b]
  | .wword w, _ => [BitVec.ofNat 8 (w.toNat / 256), BitVec.ofNat 8 w.toNat]
  | .wmark code, _ => [0xFF, code]
  | .wbits len data, s =>
    if 16 ≤ (joinedBits len data s).length then stuffed (bitsToBytes ((joinedBits len data s).take 16)) else []
  | .align, s => stuffed (bitsToBytes (paddedBits s))
  | .flush, _ => []

/-- The bits a command leaves pending, if no error ends it. -/
def pendingAfter : Instr → State → List Bool
  | .wbits len data, s =>
    if 16 ≤ (joinedBits len data s).length then (joinedBits len data s).drop 16 else joinedBits len data s
  | .align, _ => []
  | .wbyte _, s => pendingBits s
  | .wword _, s => pendingBits s
  | .wmark _, s => pendingBits s
  | .flush, s => pendingBits s

/-! ### What appending bytes does to the buffer and the sink (R33, R34, R36) -/

/-- The first `floor(m / C)` groups of `C` bytes (R36). -/
def fullChunks (c : Nat) (bytes : List Byte) : List (List Byte) :=
  (List.range (bytes.length / c)).map fun i => (bytes.drop (c * i)).take c

/-- How many transactions appending `bytes` causes (R36). -/
def transactionsFor (s : State) (bytes : List Byte) : Nat := (heldBytes s ++ bytes).length / s.capacity

/-- `s` after the byte `b` filled the buffer and the sink accepted only `k` bytes of the flush: SINK_WRITE, with the
bytes still held (R87). -/
def afterPartialFlush (s : State) (b : Byte) (k : Nat) : State :=
  { s with
    storage := Memory.write s.storage s.cursor b, cursor := s.capacity
    err := true, errCode := 1, errInfo := BitVec.ofNat 32 k
    sinkAnswers := s.sinkAnswers.tail, sinkLog := s.sinkLog ++ [⟨heldBytes s ++ [b], k⟩] }

/-- `t` is `s` after `bytes` were appended with the sink accepting everything, the accumulator aside: each full group
of `C` bytes went out as one transaction, the rest is held (R36), cleared offsets read 0x00 (R34), the other offsets
and every other field are as before. -/
def AppendsBytes (s : State) (bytes : List Byte) (t : State) : Prop :=
  let all := heldBytes s ++ bytes
  let n := all.length / s.capacity
  t.sinkLog = s.sinkLog ++ (fullChunks s.capacity all).map (fun c => ⟨c, s.capacity⟩) ∧
    t.cursor = all.length % s.capacity ∧
    heldBytes t = all.drop (s.capacity * n) ∧
    (∀ a, t.cursor ≤ a →
      Memory.read t.storage a = if n = 0 ∨ s.capacity ≤ a then Memory.read s.storage a else 0) ∧
    t.sinkAnswers = s.sinkAnswers.drop n ∧
    t.err = s.err ∧ t.errCode = s.errCode ∧ t.errInfo = s.errInfo ∧ t.capacity = s.capacity ∧
    t.booted = s.booted ∧ t.hostQueue = s.hostQueue ∧ t.sessionStart = s.sessionStart

/-- `t` is `s` after a command that appends `bytes` was ended by a partial flush (R86, R87): the bytes up to some byte
`b` were appended, then `b` filled the buffer, and the sink accepted only `k` bytes of that flush. -/
def FailsAppending (s : State) (bytes : List Byte) (t : State) : Prop :=
  ∃ (before : List Byte) (b : Byte) (after : List Byte) (u : State) (k : Nat),
    bytes = before ++ b :: after ∧ AppendsBytes s before u ∧ u.accValue = s.accValue ∧ u.accLen = s.accLen ∧
    u.cursor + 1 = u.capacity ∧ k = min (answerAhead u 0 (heldBytes u ++ [b])) u.capacity ∧ k < u.capacity ∧
    t = afterPartialFlush u b k

/-! ### Sequences of commands (R12, R113) -/

/-- The meanings of a finite command list, one after the other. -/
def runCommands : List Instr → State → Host.Outcome State Fault Refusal
  | [], s => .next s
  | i :: rest, s =>
    match exec i s with
    | .next t => runCommands rest t
    | .fault f => .fault f
    | .refused r => .refused r

/-- The bytes the commands of a list pass to `Emit`, in command order (R45), along the run from `s`. -/
def emittedByRun : List Instr → State → List Byte
  | [], _ => []
  | i :: rest, s =>
    match exec i s with
    | .next t => emittedBytes i s ++ emittedByRun rest t
    | .fault _ => []
    | .refused _ => []

/-- The bytes of a list, appended one by one with `Emit` (R36). -/
def emitAll : List Byte → State → Progress
  | [], s => .done s
  | b :: rest, s => (emit b s).andThen (emitAll rest)

end Sys2Proof.Machine
end

