-- ==== Sys2Proof/Certificates/Slice0/Obligations.lean ====
section
/-! DEFINITION. The statements for the provers, each with the rule of spec/ it formalises. They hold for every legal
capacity `C` and every answer of the sink: both are fields of the state, over which each statement quantifies.
`capacity` is the model's form of R5's parameter, `sinkAnswers` with the free value `Config.sinkAnswer` that of R37's
environment draw, `sinkLog` that of R14's observation, `hostQueue` that of R12's commands (log 1 to 4). -/

open Sys2Proof Sys2Proof.Machine

/-! ### Encoding (30_encoding.md) -/

/-- Every well-formed command is decoded from the word that encodes it, with every operand at every value (R48, R49,
R51, R54, R59). -/
def Obligations.DecodeOfEncodeIsTheCommand : Prop :=
  ∀ i : Instr, i.wf = true → decode (encode i) = .ok i

/-- Which command a legal word stands for, and which bits are its operands (R49, R54). -/
def Obligations.DecodeReadsOpAndOperands : Prop :=
  ∀ w : Word, w.extractLsb' 21 7 = 0 →
    (w.extractLsb' 28 4 = 0x0 → decode w = .ok (.wbyte (w.extractLsb' 0 8))) ∧
    (w.extractLsb' 28 4 = 0x1 → decode w = .ok (.wword (w.extractLsb' 0 16))) ∧
    (w.extractLsb' 28 4 = 0x2 → decode w = .ok (.wmark (w.extractLsb' 0 8))) ∧
    (w.extractLsb' 28 4 = 0x3 → 1 ≤ (w.extractLsb' 16 5).toNat → (w.extractLsb' 16 5).toNat ≤ 16 →
      decode w = .ok (.wbits (w.extractLsb' 16 5) (w.extractLsb' 0 16))) ∧
    (w.extractLsb' 28 4 = 0x4 → decode w = .ok .align) ∧
    (w.extractLsb' 28 4 = 0x5 → decode w = .ok .flush)

/-- R56: exactly the listed words are illegal; each raises ILLEGAL_COMMAND with the word as information and changes
nothing else (R88, R50), and every other word executes a well-formed command. -/
def Obligations.IllegalWordsAreExactlyThoseListed : Prop :=
  ∀ (w : Word) (s : State), s.err = false →
    let illegal := 6 ≤ (w.extractLsb' 28 4).toNat ∨ w.extractLsb' 21 7 ≠ 0 ∨
      (w.extractLsb' 28 4 = 0x3 ∧ ((w.extractLsb' 16 5).toNat = 0 ∨ 17 ≤ (w.extractLsb' 16 5).toNat))
    (illegal → execute w s = .next { s with err := true, errCode := 2, errInfo := w }) ∧
    (¬ illegal → ∃ i, i.wf = true ∧ decode w = .ok i ∧ execute w s = exec i s)

/-- R91: RSV is checked first, then OP, then the LEN of WBITS, and the first that applies decides. -/
def Obligations.DecodeChecksInOrder : Prop :=
  ∀ w : Word,
    (w.extractLsb' 21 7 ≠ 0 → decode w = .error .reservedBits) ∧
    (w.extractLsb' 21 7 = 0 → 6 ≤ (w.extractLsb' 28 4).toNat → decode w = .error .reservedOp) ∧
    (w.extractLsb' 21 7 = 0 → w.extractLsb' 28 4 = 0x3 →
      ((w.extractLsb' 16 5).toNat = 0 ∨ 17 ≤ (w.extractLsb' 16 5).toNat) → decode w = .error .lengthOutOfRange)

/-- R52: the fields a command does not use may hold any value and do not change the result. -/
def Obligations.IgnoredFieldsDoNotMatter : Prop :=
  ∀ (w w' : Word) (s : State), w.extractLsb' 21 7 = 0 → w'.extractLsb' 21 7 = 0 →
    w.extractLsb' 28 4 = w'.extractLsb' 28 4 → (w.extractLsb' 28 4).toNat ≤ 5 →
    ((w.extractLsb' 28 4 = 0x0 ∨ w.extractLsb' 28 4 = 0x2) → w.extractLsb' 0 8 = w'.extractLsb' 0 8) →
    (w.extractLsb' 28 4 = 0x1 → w.extractLsb' 0 16 = w'.extractLsb' 0 16) →
    (w.extractLsb' 28 4 = 0x3 →
      w.extractLsb' 16 5 = w'.extractLsb' 16 5 ∧
      1 ≤ (w.extractLsb' 16 5).toNat ∧ (w.extractLsb' 16 5).toNat ≤ 16 ∧
      (w.extractLsb' 0 16).toNat % 2 ^ (w.extractLsb' 16 5).toNat =
        (w'.extractLsb' 0 16).toNat % 2 ^ (w.extractLsb' 16 5).toNat) →
    execute w s = execute w' s

/-- R59's encodings: the word of each command, RSV and every field its OP does not use zero. R59 gives a WBITS word only
for LEN in 1..16 and a value below 2^LEN. That the same formula holds for every other LEN and DATA, the bits of DATA at
or above LEN written as they are, is the model's choice (log 10, log 11). -/
def Obligations.EncodeWritesTheAssemblersWord : Prop :=
  (∀ b : Byte, encode (.wbyte b) = 0x00000000 ||| b.setWidth 32) ∧
  (∀ w : Half, encode (.wword w) = 0x10000000 ||| w.setWidth 32) ∧
  (∀ code : Byte, encode (.wmark code) = 0x20000000 ||| code.setWidth 32) ∧
  (∀ (len : BitVec 5) (data : Half),
    encode (.wbits len data) = 0x30000000 ||| (len.setWidth 32 <<< 16) ||| data.setWidth 32) ∧
  encode .align = 0x40000000 ∧ encode .flush = 0x50000000

/-- Words the spec writes out decode as it says: those of 95_test_vectors.md E1, E2, E4, E5 and E7–E10, the first two
words of program P1 and the first word of program P2. -/
def Obligations.SpecWordsDecode : Prop :=
  decode 0x0000AB12 = .ok (.wbyte 0x12) ∧ decode 0x1000FFC0 = .ok (.wword 0xFFC0) ∧
  decode 0x200000D8 = .ok (.wmark 0xD8) ∧ decode 0x30030005 = .ok (.wbits 3 5) ∧
  decode 0x30100000 = .ok (.wbits 16 0) ∧ decode 0x4000FFFF = .ok .align ∧ decode 0x501F1234 = .ok .flush ∧
  decode 0x00200000 = .error .reservedBits ∧ decode 0x60000000 = .error .reservedOp ∧
  decode 0x30000001 = .error .lengthOutOfRange ∧ decode 0x30110000 = .error .lengthOutOfRange

/-! ### The step and the host's events (00_scope.md R12, 70_reset_and_hazards.md) -/

/-- A step runs the decoded command: from a block that has been reset, with the command's word next, the step is
`exec` of the command at the state with the word taken from the queue. -/
def Obligations.StepRunsTheDecodedCommand : Prop :=
  ∀ (s : State) (w : Word) (rest : List HostEvent) (i : Instr),
    s.booted = true → s.hostQueue = .command w :: rest → decode w = .ok i →
    step s = exec i { s with hostQueue := rest }

/-- R99: between commands the block is idle with all state held. -/
def Obligations.IdleBlockHoldsItsState : Prop :=
  ∀ s : State, s.hostQueue = [] → step s = .next s

/-- R100, R101: the reset event puts every state element at its value of R31 (`storage` may hold anything), loses held
bytes and pending bits, and makes no sink transaction. -/
def Obligations.ResetEventReinitialises : Prop :=
  ∀ (s : State) (rest : List HostEvent), s.hostQueue = .reset :: rest →
    ∃ t, step s = .next t ∧ t.accValue = 0 ∧ t.accLen = 0 ∧ t.cursor = 0 ∧ t.err = false ∧ t.errCode = 0 ∧
      t.errInfo = 0 ∧ statusWord t = 0 ∧ levelWord t = 0 ∧ errInfoWord t = 0 ∧ t.sinkLog = s.sinkLog

/-- The model's choice for the fields that are not the packer's (log 3, log 5, log 14): the reset event leaves the
parameter, the sink's answers and the observation alone, marks the block as reset and begins a session with an empty
sink stream. -/
def Obligations.ResetEventFramesTheEnvironment : Prop :=
  ∀ (s : State) (rest : List HostEvent), s.hostQueue = .reset :: rest →
    ∃ t, step s = .next t ∧ t.capacity = s.capacity ∧ t.hostQueue = rest ∧ t.sinkAnswers = s.sinkAnswers ∧
      t.sinkLog = s.sinkLog ∧ t.booted = true ∧ sinkStream t = [] ∧ appendedBytes t = []

/-- R31: the state after reset. -/
def Obligations.ResetStateHasTheResetValues : Prop :=
  State.reset.accValue = 0x0000 ∧ State.reset.accLen = 0 ∧ State.reset.cursor = 0 ∧ State.reset.err = false ∧
  State.reset.errCode = 0 ∧ State.reset.errInfo = 0 ∧
  statusWord State.reset = 0 ∧ levelWord State.reset = 0 ∧ errInfoWord State.reset = 0

/-- R102, R103, D3: the runs the spec says a model refuses are refused, each by its name. -/
def Obligations.UnmodelledRunsAreRefused : Prop :=
  ∀ (s : State) (w : Word) (rest : List HostEvent),
    (s.booted = false → s.hostQueue = .command w :: rest → step s = .refused .beforeReset) ∧
    (s.hostQueue = .resetInside w :: rest → step s = .refused .resetInsideCommand) ∧
    (s.hostQueue = .commandInside w :: rest → step s = .refused .commandInsideCommand)

/-! ### Invariants -/

/-- The invariant holds at reset. -/
def Obligations.ResetStateMeetsTheInvariant : Prop := State.Inv State.reset

/-- Every step keeps the invariant: the accumulator's range and its zero bits (R19, R20), the cursor's range (R23), the
storage's form and bounds (R21), the error fields (R24–R26), and the transactions' law (R37, R38, R87). -/
def Obligations.StepKeepsTheInvariant : Prop :=
  ∀ s t : State, s.Inv → step s = .next t → t.Inv

/-- R11: from a state that meets the invariant every command and every word completes with a next state, and no step
faults: no byte outside the buffer is ever asked for (R33). -/
def Obligations.EveryCommandEndsWithANextState : Prop :=
  ∀ s : State, s.Inv →
    (∀ i : Instr, ∃ t, exec i s = .next t) ∧ (∀ w : Word, ∃ t, execute w s = .next t) ∧
    ∀ f : Fault, step s ≠ .fault f

/-! ### Buffer and sink (20_memory.md) -/

/-- R33: `Emit` stores the byte at the cursor and advances it, and flushes at once where that fills the buffer. -/
def Obligations.EmitStoresAtTheCursor : Prop :=
  ∀ (b : Byte) (s : State), s.Inv → s.err = false →
    ∃ u, u = { s with storage := u.storage, cursor := s.cursor + 1 } ∧
      (∀ a, Memory.read u.storage a = if a = s.cursor then b else Memory.read s.storage a) ∧
      (s.cursor + 1 < s.capacity → emit b s = .done u) ∧
      (s.cursor + 1 = s.capacity → emit b s = flushBuffer u)

/-- R34, R35: `FlushBuffer` offers the held bytes as one transaction; `k = n` clears the delivered range and the cursor,
`k < n` raises SINK_WRITE with `storage` and `cursor` unchanged, and an empty buffer makes no transaction. -/
def Obligations.FlushBufferDeliversTheHeldBytes : Prop :=
  ∀ (s : State) (k : Nat), s.Inv → k = min (answerAhead s 0 (heldBytes s)) s.cursor →
    (s.cursor = 0 → flushBuffer s = .done s) ∧
    (0 < s.cursor → k = s.cursor →
      ∃ t, flushBuffer s = .done t ∧
        t = { s with storage := t.storage, cursor := 0, sinkAnswers := s.sinkAnswers.tail,
                     sinkLog := s.sinkLog ++ [⟨heldBytes s, k⟩] } ∧
        ∀ a, Memory.read t.storage a = if a < s.cursor then 0x00 else Memory.read s.storage a) ∧
    (k < s.cursor →
      flushBuffer s = .raised { s with
        err := true, errCode := 1, errInfo := BitVec.ofNat 32 k
        sinkAnswers := s.sinkAnswers.tail, sinkLog := s.sinkLog ++ [⟨heldBytes s, k⟩] })

/-- R37: a request of `n` bytes is answered with a count from 0 to `n`, any such count can be the answer, the accepted
bytes are the request's first `k`, and every transaction a step makes carries 1 to `C` bytes. -/
def Obligations.SinkAnswersAnyCountUpToTheRequest : Prop :=
  (∀ (s : State) (request : List Byte), sinkAnswer s request ≤ request.length) ∧
  (∀ (s : State) (request : List Byte) (k : Nat), k ≤ request.length →
    sinkAnswer { s with sinkAnswers := k :: s.sinkAnswers } request = k) ∧
  (∀ (x : Transaction) (k : Nat), k < x.accepted → x.acceptedBytes[k]? = x.request[k]?) ∧
  (∀ (x : Transaction) (k : Nat), x.accepted ≤ k → x.acceptedBytes[k]? = none) ∧
  ∀ (s t : State) (new : List Transaction), s.Inv → step s = .next t → t.sinkLog = s.sinkLog ++ new →
    ∀ x ∈ new, 1 ≤ x.request.length ∧ x.request.length ≤ s.capacity ∧ x.accepted ≤ x.request.length

/-- R36: from an empty buffer, `m` bytes with the sink accepting everything make `floor(m / C)` transactions of `C`
bytes each, in order, and leave the last `m mod C` held; `C` bytes make exactly one. -/
def Obligations.FlushThreshold : Prop :=
  ∀ (s : State) (bytes : List Byte), s.Inv → s.err = false → s.cursor = 0 →
    acceptsNext s (bytes.length / s.capacity) →
    ∃ t, emitAll bytes s = .done t ∧
      t.sinkLog = s.sinkLog ++ (List.range (bytes.length / s.capacity)).map
        (fun i => ⟨(bytes.drop (s.capacity * i)).take s.capacity, s.capacity⟩) ∧
      t.cursor = bytes.length % s.capacity ∧
      heldBytes t = bytes.drop (s.capacity * (bytes.length / s.capacity)) ∧
      (bytes.length = s.capacity → t.sinkLog = s.sinkLog ++ [⟨bytes, s.capacity⟩] ∧ t.cursor = 0)

/-- The transactions a command makes: at most four (R11), each answered by the next answer of the sink (R37), and the
error flag rises exactly where the last of them was partial (R87). -/
def Obligations.TransactionsFollowTheSinksAnswers : Prop :=
  ∀ (i : Instr) (s t : State), s.Inv → i.wf = true → s.err = false → exec i s = .next t →
    ∃ new, t.sinkLog = s.sinkLog ++ new ∧ new.length ≤ 4 ∧ t.sinkAnswers = s.sinkAnswers.drop new.length ∧
      (∀ (j : Nat) (x : Transaction), new[j]? = some x →
        x.accepted = min (answerAhead s j x.request) x.request.length) ∧
      (t.err = true ↔ ∃ x ∈ new, x.accepted < x.request.length)

/-- R45: on a run without error the bytes appended are those of the commands in command order, the sink stream is a
prefix of all appended bytes, and after a final FLUSH it is all of them. -/
def Obligations.SinkStreamFollowsEmitOrder : Prop :=
  ∀ (commands : List Instr) (s t : State), s.Inv → (∀ i ∈ commands, i.wf = true) →
    runCommands commands s = .next t → t.err = false →
    appendedBytes t = appendedBytes s ++ emittedByRun commands s ∧
    sinkStream t <+: appendedBytes t ∧
    (commands.getLast? = some .flush → sinkStream t = appendedBytes t)

/-- R46: after a FLUSH that completes without error every byte emitted before it has been accepted by the sink, and the
pending bits stay where they are. -/
def Obligations.FlushDeliversEverythingEmitted : Prop :=
  ∀ s t : State, s.Inv → exec .flush s = .next t → t.err = false →
    sinkStream t = appendedBytes s ∧ t.cursor = 0 ∧ t.accValue = s.accValue ∧ t.accLen = s.accLen

/-! ### The byte path (40_byte_path.md) -/

/-- R61: WBYTE appends its byte raw; a partial flush of the buffer it fills is SINK_WRITE with the byte stored, and
nothing else can happen. -/
def Obligations.WbyteAppendsOneRawByte : Prop :=
  (∀ w : Word, w.extractLsb' 28 4 = 0x0 → w.extractLsb' 21 7 = 0 →
    decode w = .ok (.wbyte (w.extractLsb' 0 8))) ∧
  ∀ (b : Byte) (s : State), s.Inv → s.err = false →
    (acceptsNext s (transactionsFor s [b]) →
      ∃ t, exec (.wbyte b) s = .next t ∧ AppendsBytes s [b] t ∧ t.accValue = s.accValue ∧ t.accLen = s.accLen) ∧
    (∀ k, s.cursor + 1 = s.capacity → k = min (answerAhead s 0 (heldBytes s ++ [b])) s.capacity → k < s.capacity →
      exec (.wbyte b) s = .next (afterPartialFlush s b k)) ∧
    (∀ t, exec (.wbyte b) s = .next t →
      (AppendsBytes s [b] t ∧ t.accValue = s.accValue ∧ t.accLen = s.accLen) ∨ FailsAppending s [b] t)

/-- R62, R39: WWORD appends the high byte, then the low byte, both raw; a failed first flush stops the second byte,
and nothing else can happen than that both are appended or a partial flush ends the command. -/
def Obligations.WwordAppendsHighThenLowByte : Prop :=
  (∀ w : Word, w.extractLsb' 28 4 = 0x1 → w.extractLsb' 21 7 = 0 →
    decode w = .ok (.wword (w.extractLsb' 0 16))) ∧
  ∀ (w : Half) (s : State), s.Inv → s.err = false →
    (acceptsNext s (transactionsFor s [w.extractLsb' 8 8, w.extractLsb' 0 8]) →
      ∃ t, exec (.wword w) s = .next t ∧ AppendsBytes s [w.extractLsb' 8 8, w.extractLsb' 0 8] t ∧
        t.accValue = s.accValue ∧ t.accLen = s.accLen) ∧
    (∀ k, s.cursor + 1 = s.capacity → k = min (answerAhead s 0 (heldBytes s ++ [w.extractLsb' 8 8])) s.capacity →
      k < s.capacity → exec (.wword w) s = .next (afterPartialFlush s (w.extractLsb' 8 8) k)) ∧
    (∀ t, exec (.wword w) s = .next t →
      (AppendsBytes s [w.extractLsb' 8 8, w.extractLsb' 0 8] t ∧ t.accValue = s.accValue ∧ t.accLen = s.accLen) ∨
      FailsAppending s [w.extractLsb' 8 8, w.extractLsb' 0 8] t)

/-- R63: WMARK appends `0xFF` and the code, both raw for every code; a failed first flush stops the code, and
nothing else can happen than that both are appended or a partial flush ends the command. -/
def Obligations.WmarkAppendsMarkerAndCode : Prop :=
  (∀ w : Word, w.extractLsb' 28 4 = 0x2 → w.extractLsb' 21 7 = 0 →
    decode w = .ok (.wmark (w.extractLsb' 0 8))) ∧
  ∀ (code : Byte) (s : State), s.Inv → s.err = false →
    (acceptsNext s (transactionsFor s [0xFF, code]) →
      ∃ t, exec (.wmark code) s = .next t ∧ AppendsBytes s [0xFF, code] t ∧
        t.accValue = s.accValue ∧ t.accLen = s.accLen) ∧
    (∀ k, s.cursor + 1 = s.capacity → k = min (answerAhead s 0 (heldBytes s ++ [0xFF])) s.capacity →
      k < s.capacity → exec (.wmark code) s = .next (afterPartialFlush s 0xFF k)) ∧
    (∀ t, exec (.wmark code) s = .next t →
      (AppendsBytes s [0xFF, code] t ∧ t.accValue = s.accValue ∧ t.accLen = s.accLen) ∨
      FailsAppending s [0xFF, code] t)

/-- R64: FLUSH delivers the held bytes and nothing else; it is no transaction on an empty buffer, so a second FLUSH
makes none; a partial answer raises SINK_WRITE with `cursor` and `storage` unchanged. -/
def Obligations.FlushDeliversTheHeldBytes : Prop :=
  (∀ w : Word, w.extractLsb' 28 4 = 0x5 → w.extractLsb' 21 7 = 0 → decode w = .ok .flush) ∧
  ∀ s : State, s.Inv → s.err = false →
    (s.cursor = 0 → exec .flush s = .next s) ∧
    (0 < s.cursor → s.cursor ≤ answerAhead s 0 (heldBytes s) →
      ∃ t, exec .flush s = .next t ∧
        t = { s with storage := t.storage, cursor := 0, sinkAnswers := s.sinkAnswers.tail,
                     sinkLog := s.sinkLog ++ [⟨heldBytes s, s.cursor⟩] } ∧
        ∀ a, Memory.read t.storage a = if a < s.cursor then 0x00 else Memory.read s.storage a) ∧
    (∀ k, k = min (answerAhead s 0 (heldBytes s)) s.cursor → k < s.cursor →
      exec .flush s = .next { s with
        err := true, errCode := 1, errInfo := BitVec.ofNat 32 k
        sinkAnswers := s.sinkAnswers.tail, sinkLog := s.sinkLog ++ [⟨heldBytes s, k⟩] }) ∧
    (∀ t, exec .flush s = .next t → t.err = false → exec .flush t = .next t)

/-- R66: the byte-path commands and FLUSH leave the accumulator alone, whatever the sink answers. -/
def Obligations.BytePathLeavesTheAccumulator : Prop :=
  ∀ (i : Instr) (s t : State),
    ((∃ b, i = .wbyte b) ∨ (∃ w, i = .wword w) ∨ (∃ code, i = .wmark code) ∨ i = .flush) →
    exec i s = .next t → t.accValue = s.accValue ∧ t.accLen = s.accLen

/-- R67: with the sink accepting everything, `WMARK code` puts exactly `0xFF, code` into the sink stream, adjacent and
in that order, for every code: a FLUSH after it shows them at the stream's end. -/
def Obligations.MarkerImmunity : Prop :=
  ∀ (code : Byte) (s : State), s.Inv → s.err = false → acceptsNext s 3 →
    ∃ t, runCommands [.wmark code, .flush] s = .next t ∧ t.err = false ∧
      sinkStream t = appendedBytes s ++ [0xFF, code]

/-! ### The bit path (41_bit_path.md) -/

/-- R70: WBITS by its shifts. With fewer than 16 bits it merges and emits nothing; with 16 or more it emits the joined
word's bytes, high byte first, each stuffed, and keeps the rest; an error during emission leaves the accumulator. -/
def Obligations.WbitsPacksTheCode : Prop :=
  (∀ w : Word, w.extractLsb' 28 4 = 0x3 → w.extractLsb' 21 7 = 0 →
    1 ≤ (w.extractLsb' 16 5).toNat → (w.extractLsb' 16 5).toNat ≤ 16 →
    decode w = .ok (.wbits (w.extractLsb' 16 5) (w.extractLsb' 0 16))) ∧
  ∀ (len : BitVec 5) (data : Half) (s : State) (code total word : Nat), s.Inv → s.err = false →
    1 ≤ len.toNat → len.toNat ≤ 16 → code = data.toNat % 2 ^ len.toNat → total = s.accLen + len.toNat →
    word = s.accValue.toNat ||| code >>> (total - 16) →
    (total < 16 →
      exec (.wbits len data) s = .next { s with
        accValue := BitVec.ofNat 16 (s.accValue.toNat ||| code <<< (16 - total)), accLen := total }) ∧
    (16 ≤ total →
      acceptsNext s (transactionsFor s (stuffed [BitVec.ofNat 8 (word / 256), BitVec.ofNat 8 word])) →
      ∃ t, exec (.wbits len data) s = .next t ∧
        AppendsBytes s (stuffed [BitVec.ofNat 8 (word / 256), BitVec.ofNat 8 word]) t ∧
        t.accValue = BitVec.ofNat 16 (code <<< (16 - (total - 16))) ∧ t.accLen = total - 16) ∧
    (∀ t, 16 ≤ total → exec (.wbits len data) s = .next t →
      (AppendsBytes s (stuffed [BitVec.ofNat 8 (word / 256), BitVec.ofNat 8 word]) t ∧
        t.accValue = BitVec.ofNat 16 (code <<< (16 - (total - 16))) ∧ t.accLen = total - 16) ∨
      FailsAppending s (stuffed [BitVec.ofNat 8 (word / 256), BitVec.ofNat 8 word]) t)

/-- R71: WBITS in bit strings. With `S` the pending bits followed by the code's, it emits the first 16 bits of `S` as
two stuffed bytes and leaves the rest pending, or emits nothing and leaves `S` pending; zeros stay below (R19). -/
def Obligations.WbitsIsConcatenationOfBitStrings : Prop :=
  ∀ (len : BitVec 5) (data : Half) (s : State) (bits : List Bool), s.Inv → s.err = false →
    1 ≤ len.toNat → len.toNat ≤ 16 → bits = pendingBits s ++ bitstr (data.toNat % 2 ^ len.toNat) len.toNat →
    (bits.length < 16 →
      ∃ t, exec (.wbits len data) s = .next t ∧ pendingBits t = bits ∧ accumulatorOk t ∧ AppendsBytes s [] t) ∧
    (16 ≤ bits.length → acceptsNext s (transactionsFor s (stuffed (bitsToBytes (bits.take 16)))) →
      ∃ t, exec (.wbits len data) s = .next t ∧ pendingBits t = bits.drop 16 ∧ accumulatorOk t ∧
        AppendsBytes s (stuffed (bitsToBytes (bits.take 16))) t)

/-- R72, R65: the bytes a completed command appends are its operands or packed bytes, with one `0x00` after each `0xFF`
of the bit path and nothing after any other byte; removing the inserted bytes gives the packed bytes back. -/
def Obligations.OnlyTheBitPathStuffs : Prop :=
  ∀ (i : Instr) (s t : State), s.Inv → i.wf = true → s.err = false → exec i s = .next t → t.err = false →
    (∀ b, i = .wbyte b → appendedBytes t = appendedBytes s ++ [b]) ∧
    (∀ w, i = .wword w → appendedBytes t = appendedBytes s ++ [w.extractLsb' 8 8, w.extractLsb' 0 8]) ∧
    (∀ code, i = .wmark code → appendedBytes t = appendedBytes s ++ [0xFF, code]) ∧
    ((∃ len data, i = .wbits len data) ∨ i = .align →
      ∃ packed : List Byte,
        appendedBytes t = appendedBytes s ++ packed.flatMap (fun b => if b = 0xFF then [0xFF, 0x00] else [b]) ∧
        destuff (packed.flatMap (fun b => if b = 0xFF then [0xFF, 0x00] else [b])) = packed ∧
        bytesToBits packed ++ pendingBits t = pendingBits s ++ addedBits i s)

/-- R73, the round-trip law: from an empty accumulator, a run of WBITS commands without error appends bytes whose
destuffed bits, followed by the bits still pending, are the codes' bits one after the other; the sum of the lengths
modulo 16 is pending. -/
def Obligations.BitPackingRoundTrip : Prop :=
  ∀ (codes : List (BitVec 5 × Half)) (s t : State), s.Inv → s.accLen = 0 →
    (∀ c ∈ codes, 1 ≤ c.1.toNat ∧ c.1.toNat ≤ 16) →
    runCommands (codes.map fun c => .wbits c.1 c.2) s = .next t → t.err = false →
    ∃ emitted, appendedBytes t = appendedBytes s ++ emitted ∧
      bytesToBits (destuff emitted) ++ pendingBits t =
        codes.flatMap (fun c => bitstr (c.2.toNat % 2 ^ c.1.toNat) c.1.toNat) ∧
      (pendingBits t).length = (codes.map fun c => c.1.toNat).sum % 16

/-- R74, R75, R77, R78: ALIGN by cases on how many bits are pending, what it leaves, and what a partial flush leaves:
the padded byte `(8, acc_value)` where at most 7 bits were pending, the value on entry otherwise. -/
def Obligations.AlignByThePendingLength : Prop :=
  (∀ w : Word, w.extractLsb' 28 4 = 0x4 → w.extractLsb' 21 7 = 0 → decode w = .ok .align) ∧
  ∀ (s : State) (bytes : List Byte), s.Inv → s.err = false →
    bytes =
      (if s.accLen = 0 then [0xFF, 0x00]
      else if s.accLen ≤ 7 then
        stuffed [BitVec.ofNat 8 (s.accValue.toNat / 256 ||| (2 ^ (8 - s.accLen) - 1))]
      else if s.accLen = 8 then stuffed [BitVec.ofNat 8 (s.accValue.toNat / 256)] ++ [0xFF, 0x00]
      else
        stuffed [BitVec.ofNat 8 ((s.accValue.toNat ||| (2 ^ (16 - s.accLen) - 1)) / 256),
          BitVec.ofNat 8 (s.accValue.toNat ||| (2 ^ (16 - s.accLen) - 1))]) →
    1 ≤ bytes.length ∧ bytes.length ≤ 4 ∧
    combinedLength s.accLen (8 - s.accLen % 8) = (if s.accLen ≤ 7 then -8 else 0) ∧
    (acceptsNext s (transactionsFor s bytes) →
      ∃ t, exec .align s = .next t ∧ AppendsBytes s bytes t ∧ t.accLen = 0 ∧ t.accValue = 0x0000) ∧
    (∀ t, exec .align s = .next t →
      (AppendsBytes s bytes t ∧ t.accLen = 0 ∧ t.accValue = 0x0000) ∨
      (s.accLen ≤ 7 ∧ FailsAppending { s with
        accValue := BitVec.ofNat 16 (s.accValue.toNat ||| (2 ^ (8 - s.accLen) - 1) <<< 8), accLen := 8 } bytes t) ∨
      (8 ≤ s.accLen ∧ FailsAppending s bytes t))

/-- R76: ALIGN in bit strings: it emits, stuffed, the bytes of the pending bits padded with one-bits to the next byte
boundary, and leaves nothing pending. -/
def Obligations.AlignPadsWithOneBits : Prop :=
  ∀ (s : State) (bytes : List Byte), s.Inv → s.err = false →
    bytes = stuffed (bitsToBytes
      (pendingBits s ++ List.replicate (8 - (pendingBits s).length % 8) true)) →
    acceptsNext s (transactionsFor s bytes) →
    ∃ t, exec .align s = .next t ∧ AppendsBytes s bytes t ∧ pendingBits t = []

/-- R111: WBITS appends 0 to 4 bytes and ALIGN 1 to 4, the stuffing bytes counted. -/
def Obligations.BitPathAppendsAtMostFourBytes : Prop :=
  ∀ (i : Instr) (s t : State), s.Inv → i.wf = true → s.err = false → exec i s = .next t → t.err = false →
    ((∃ len data, i = .wbits len data) →
      ∃ bytes, appendedBytes t = appendedBytes s ++ bytes ∧ bytes.length ≤ 4) ∧
    (i = .align → ∃ bytes, appendedBytes t = appendedBytes s ++ bytes ∧ 1 ≤ bytes.length ∧ bytes.length ≤ 4)

/-! ### Errors (60_exceptions.md) -/

/-- R24, R90, R93: `err` is 0 after reset, `raise` sets it, while it is 1 every command word is accepted and discarded
and the status words keep reporting the first error, and only reset clears it. -/
def Obligations.ErrorIsStickyUntilReset : Prop :=
  State.reset.err = false ∧
  (∀ (cause : ErrorCause) (info : Word) (s : State), (raiseError cause info s).err = true) ∧
  (∀ (s : State) (w : Word) (rest : List HostEvent), s.err = true → s.booted = true →
    s.hostQueue = .command w :: rest → step s = .next { s with hostQueue := rest }) ∧
  (∀ s t : State, step s = .next t → s.err = true →
    (∃ rest, s.hostQueue = .reset :: rest ∧ t.err = false) ∨
    (t.err = true ∧ t.errCode = s.errCode ∧ t.errInfo = s.errInfo ∧ t.sinkLog = s.sinkLog ∧
      statusWord t = statusWord s ∧ levelWord t = levelWord s ∧ errInfoWord t = errInfoWord s))

/-- R85: the complete list of causes. A step raises an error only from a command word: ILLEGAL_COMMAND, with the word,
if the word is illegal; SINK_WRITE, with the accepted count of the last transaction, if it is legal. -/
def Obligations.ErrorsHaveTheListedCauses : Prop :=
  ∀ s t : State, s.Inv → step s = .next t → s.err = false → t.err = true →
    ∃ w rest, s.hostQueue = .command w :: rest ∧
      (((∃ e, decode w = .error e) ∧ t.errCode = 2 ∧ t.errInfo = w ∧ t.sinkLog = s.sinkLog) ∨
       ((∃ i, decode w = .ok i) ∧ t.errCode = 1 ∧
         ∃ before x, t.sinkLog = s.sinkLog ++ before ++ [x] ∧ x.accepted < x.request.length ∧
           t.errInfo = BitVec.ofNat 32 x.accepted))

/-- R25: `err_code` is 0 whenever `err = 0`, is 1 or 2 otherwise, and is written only together with `err`. -/
def Obligations.ErrorCodesAgreeWithTheFlag : Prop :=
  ∀ s t : State, s.Inv → step s = .next t →
    (t.err = false → t.errCode = 0 ∧ t.errInfo = 0) ∧ (t.err = true → t.errCode = 1 ∨ t.errCode = 2) ∧
    (t.errCode ≠ s.errCode → t.err ≠ s.err)

/-- R86, R87: a partial write ends the command. The failed transaction is the last one, its bytes are still held and
the cursor stands at their end (at `C` where a full buffer caused the flush), the sink stream has gained the accepted
bytes alone, of the command's bytes a first part was appended and the rest was not, and no later command delivers
anything. -/
def Obligations.PartialWriteEndsTheCommand : Prop :=
  ∀ (i : Instr) (s t : State), s.Inv → i.wf = true → s.err = false → exec i s = .next t → t.err = true →
    t.errCode = 1 ∧
    ∃ before x, t.sinkLog = s.sinkLog ++ before ++ [x] ∧ (∀ y ∈ before, y.accepted = y.request.length) ∧
      x.accepted < x.request.length ∧ t.errInfo = BitVec.ofNat 32 x.accepted ∧
      x.request = heldBytes t ∧ t.cursor = x.request.length ∧ (i ≠ .flush → t.cursor = t.capacity) ∧
      sinkStream t = sinkStream s ++ before.flatMap Transaction.request ++ x.request.take x.accepted ∧
      (∃ j, j ≤ (emittedBytes i s).length ∧ (i ≠ .flush → 1 ≤ j) ∧
        appendedBytes t = appendedBytes s ++ (emittedBytes i s).take j) ∧
      ∀ later : List Instr, runCommands later t = .next t

/-- R92: at an error the command's bytes up to some point were appended and no later one was; and the accumulator
after it, by the command and by where the error struck. -/
def Obligations.AccumulatorAfterAnError : Prop :=
  ∀ (i : Instr) (s t : State), s.Inv → i.wf = true → s.err = false → exec i s = .next t → t.err = true →
    (∃ j, j ≤ (emittedBytes i s).length ∧ appendedBytes t = appendedBytes s ++ (emittedBytes i s).take j) ∧
    (i ≠ .align ∨ 8 ≤ s.accLen → t.accValue = s.accValue ∧ t.accLen = s.accLen) ∧
    (i = .align → s.accLen ≤ 7 →
      t.accLen = 8 ∧ t.accValue = BitVec.ofNat 16 (s.accValue.toNat ||| (2 ^ (8 - s.accLen) - 1) <<< 8))

/-- A WBITS whose LEN is out of range is ILLEGAL_COMMAND (R51) as an instruction of the model too, with the word that
stands for it. -/
def Obligations.WbitsWithABadLengthIsIllegal : Prop :=
  ∀ (len : BitVec 5) (data : Half) (s : State), s.err = false → (len.toNat = 0 ∨ 17 ≤ len.toNat) →
    exec (.wbits len data) s = .next { s with
      err := true, errCode := 2, errInfo := 0x30000000 ||| (len.setWidth 32 <<< 16) ||| data.setWidth 32 }

/-! ### Frames -/

/-- What every command leaves alone, whatever the sink answers: the parameter, the host's queue, the session's start,
every earlier transaction; and the error fields, unless this command raised the error. -/
def Obligations.CommandsFrameTheRestOfTheState : Prop :=
  ∀ (i : Instr) (s t : State), s.Inv → exec i s = .next t →
    t.capacity = s.capacity ∧ t.booted = s.booted ∧ t.hostQueue = s.hostQueue ∧ t.sessionStart = s.sessionStart ∧
    (∃ new, t.sinkLog = s.sinkLog ++ new ∧ t.sinkAnswers = s.sinkAnswers.drop new.length) ∧
    ((t.err = s.err ∧ t.errCode = s.errCode ∧ t.errInfo = s.errInfo) ∨ (s.err = false ∧ t.err = true))

/-- The buffer's bytes, for WBYTE, WWORD, WMARK, WBITS and ALIGN: no byte at or above `C` changes; where no transaction
was accepted whole, only the offsets from the old cursor up to the new one change; where one was, every offset of the
buffer at or above the new cursor was cleared (R33, R34). -/
def Obligations.AppendingCommandsFrameTheStorage : Prop :=
  ∀ (i : Instr) (s t : State) (new : List Transaction), s.Inv → s.err = false → i ≠ .flush →
    exec i s = .next t → t.sinkLog = s.sinkLog ++ new →
    (∀ a, s.capacity ≤ a → Memory.read t.storage a = Memory.read s.storage a) ∧
    ((∀ x ∈ new, x.accepted < x.request.length) → s.cursor ≤ t.cursor ∧
      ∀ a, a < s.cursor ∨ t.cursor ≤ a → Memory.read t.storage a = Memory.read s.storage a) ∧
    ((∃ x ∈ new, x.accepted = x.request.length) →
      ∀ a, t.cursor ≤ a → a < s.capacity → Memory.read t.storage a = 0x00)

/-- The buffer's bytes for FLUSH: only the delivered range is cleared, and only where the flush succeeded (R34, R64). -/
def Obligations.FlushFramesTheStorage : Prop :=
  ∀ s t : State, s.Inv → s.err = false → exec .flush s = .next t →
    (t.err = true → t.storage = s.storage ∧ t.cursor = s.cursor) ∧
    (t.err = false → t.cursor = 0 ∧
      ∀ a, Memory.read t.storage a = if a < s.cursor then 0x00 else Memory.read s.storage a)

/-- R21: the bytes at and above the cursor are unobservable. Two blocks that differ only there make the same
transactions with every command, and differ only there afterwards; so what a byte that nothing has written reads as
(the model's choice of log 6) shows nowhere. -/
def Obligations.StorageAboveTheCursorIsUnobservable : Prop :=
  ∀ (i : Instr) (s t : State) (other : Memory), s.Inv → { s with storage := other }.Inv →
    heldBytes { s with storage := other } = heldBytes s → exec i s = .next t →
    ∃ u, exec i { s with storage := other } = .next u ∧ u = { t with storage := u.storage } ∧ heldBytes u = heldBytes t

/-- A word ILLEGAL_COMMAND refuses leaves the accumulator, the buffer and the sink alone (R88). -/
def Obligations.IllegalCommandsChangeTheErrorFieldsAlone : Prop :=
  ∀ (s : State) (w : Word) (rest : List HostEvent) (e : DecodeError), s.err = false → s.booted = true →
    s.hostQueue = .command w :: rest → decode w = .error e →
    ∃ t, step s = .next t ∧ t.err = true ∧ t.errCode = 2 ∧ t.errInfo = w ∧
      t.accValue = s.accValue ∧ t.accLen = s.accLen ∧ t.storage = s.storage ∧ t.cursor = s.cursor ∧
      t.sinkLog = s.sinkLog ∧ t.sinkAnswers = s.sinkAnswers

/-! ### Accumulator and status words (10_state.md) -/

/-- What each command that completes without error leaves in `acc_len` (R20), from a state that meets the invariant. -/
def Obligations.PendingLengthAfterEachCommand : Prop :=
  ∀ (i : Instr) (s t : State), s.Inv → i.wf = true → s.err = false → exec i s = .next t → t.err = false →
    t.accLen ≤ 15 ∧
    (∀ len data, i = .wbits len data → 16 ≤ s.accLen + len.toNat → t.accLen = s.accLen + len.toNat - 16) ∧
    (∀ len data, i = .wbits len data → s.accLen + len.toNat < 16 → t.accLen = s.accLen + len.toNat) ∧
    (i = .align → t.accLen = 0) ∧
    ((∀ len data, i ≠ .wbits len data) → i ≠ .align → t.accLen = s.accLen)

/-- R27: the fields of STATUS, its reserved bits, and its formula. -/
def Obligations.StatusWordFields : Prop :=
  (∀ s : State, (statusWord s).extractLsb' 0 1 = BitVec.ofBool s.err ∧ (statusWord s).extractLsb' 1 3 = s.errCode ∧
    (statusWord s).extractLsb' 4 4 = 0 ∧ (statusWord s).extractLsb' 13 3 = 0 ∧
    (statusWord s).extractLsb' 16 16 = s.accValue) ∧
  (∀ s : State, s.accLen ≤ 15 → ((statusWord s).extractLsb' 8 5).toNat = s.accLen ∧
    (statusWord s).toNat = s.err.toNat ||| (s.errCode.toNat <<< 1) ||| (s.accLen <<< 8) |||
      (s.accValue.toNat <<< 16)) ∧
  statusWord State.reset = 0

/-- R28, R29: LEVEL is the number of bytes held, below `C` while `err = 0` and at most `C` otherwise; ERRINFO is
`err_info`; both are 0 at reset. -/
def Obligations.LevelAndErrInfoWords : Prop :=
  (∀ s : State, s.Inv → (levelWord s).toNat = s.cursor ∧ (levelWord s).toNat = (heldBytes s).length ∧
    (s.err = false → (levelWord s).toNat < s.capacity) ∧ (levelWord s).toNat ≤ s.capacity) ∧
  (∀ s : State, errInfoWord s = s.errInfo) ∧
  levelWord State.reset = 0 ∧ errInfoWord State.reset = 0

/-! ### Runs (R12, R113) -/

/-- Commands are executed one at a time in the host's order: the steps of a block whose host pushes the words of a list
of commands are the meanings of those commands, one after the other. -/
def Obligations.QueueOfWordsRunsTheCommands : Prop :=
  ∀ (commands : List Instr) (rest : List HostEvent) (s : State), s.booted = true →
    (∀ i ∈ commands, i.wf = true) →
    Host.Core.run Sys2Proof.core commands.length
      { s with hostQueue := commands.map (fun i => .command (encode i)) ++ rest } =
    runCommands commands { s with hostQueue := rest }
end

