-- ==== Sys2Proof/Laws/Bits.lean ====
section
/-! SUPPORT. Bit strings against numbers (R8): the value and the bytes of a bit string, and the shifts of WBITS and
ALIGN as concatenations of bit strings (R71, R76). -/

namespace Sys2Proof.Machine

@[simp] theorem bitstr_length (v n : Nat) : (bitstr v n).length = n := by simp [bitstr]

theorem bitstr_getElem {v n i : Nat} (h : i < (bitstr v n).length) :
    (bitstr v n)[i] = v.testBit (n - 1 - i) := by
  simp [bitstr]

/-- Two bit strings of one length that agree at every place. -/
theorem bitstr_ext {bits : List Bool} {v n : Nat} (hl : bits.length = n)
    (h : ∀ i (hi : i < bits.length), bits[i] = v.testBit (n - 1 - i)) : bits = bitstr v n := by
  apply List.ext_getElem
  · simp [hl]
  · intro i h1 h2
    rw [h i h1, bitstr_getElem]

theorem bitsValue_concat (bits : List Bool) (b : Bool) : bitsValue (bits ++ [b]) = 2 * bitsValue bits + b.toNat := by
  simp [bitsValue]

theorem bitstr_succ (v n : Nat) : bitstr v (n + 1) = bitstr (v / 2) n ++ [v.testBit 0] := by
  symm
  apply bitstr_ext
  · simp
  · intro i hi
    rw [List.length_append, bitstr_length, List.length_singleton] at hi
    by_cases h : i < n
    · rw [List.getElem_append_left (by simpa using h), bitstr_getElem, Nat.testBit_div_two]
      congr 1
      omega
    · have : i = n := by omega
      subst this
      simp

/-- A bit string stands for the low bits of the number it was made of. -/
theorem bitsValue_bitstr (v n : Nat) : bitsValue (bitstr v n) = v % 2 ^ n := by
  induction n generalizing v with
  | zero => simp [bitsValue, bitstr, Nat.mod_one]
  | succ n ih =>
    rw [bitstr_succ, bitsValue_concat, ih, Nat.testBit_zero]
    have h : (decide (v % 2 = 1)).toNat = v % 2 := by
      rcases Nat.mod_two_eq_zero_or_one v with h | h <;> simp [h]
    rw [h, Nat.pow_succ', Nat.mod_mul]
    omega

theorem bitstr_take {v n k : Nat} (h : k ≤ n) : (bitstr v n).take k = bitstr (v >>> (n - k)) k := by
  apply bitstr_ext
  · simp [h]
  · intro i hi
    simp only [List.length_take, bitstr_length] at hi
    rw [List.getElem_take, bitstr_getElem, Nat.testBit_shiftRight]
    congr 1
    omega

theorem bitstr_drop {v n k : Nat} : (bitstr v n).drop k = bitstr v (n - k) := by
  apply bitstr_ext
  · simp
  · intro i hi
    simp only [List.length_drop, bitstr_length] at hi
    rw [List.getElem_drop, bitstr_getElem]
    congr 1
    omega

/-- The one byte of an 8-bit string. -/
theorem bitsToBytes_bitstr_8 (v : Nat) : bitsToBytes (bitstr v 8) = [BitVec.ofNat 8 v] := by
  have h : (bitstr v 8).take 8 = bitstr v 8 := List.take_of_length_le (by simp)
  simp only [bitsToBytes, bitstr_length, Nat.div_self (show 0 < 8 by decide), List.range_one, List.map_singleton,
    Nat.mul_zero, List.drop_zero, h, bitsValue_bitstr]
  simp [← BitVec.toNat_inj]

/-- The two bytes of a 16-bit string. -/
theorem bitsToBytes_bitstr_16 (v : Nat) :
    bitsToBytes (bitstr v 16) = [BitVec.ofNat 8 (v / 256), BitVec.ofNat 8 v] := by
  have h1 : (bitstr v 16).take 8 = bitstr (v >>> 8) 8 := bitstr_take (by decide)
  have h2 : (bitstr v 16).drop 8 = bitstr v 8 := bitstr_drop
  have h3 : (bitstr v 8).take 8 = bitstr v 8 := List.take_of_length_le (by simp)
  have hr : List.range 2 = [0, 1] := rfl
  simp only [bitsToBytes, bitstr_length, show 16 / 8 = 2 from rfl, hr, List.map_cons, List.map_nil,
    Nat.mul_zero, Nat.mul_one, List.drop_zero, h1, h2, h3, bitsValue_bitstr]
  simp [← BitVec.toNat_inj, Nat.shiftRight_eq_div_pow]

/-- The pending bits, place by place (R17). -/
theorem pendingBits_getElem {s : State} (h16 : s.accLen ≤ 16) {i : Nat} (h : i < (pendingBits s).length) :
    (pendingBits s)[i] = s.accValue.toNat.testBit (15 - i) := by
  simp only [pendingBits, bitstr_length] at h
  rw [show (pendingBits s)[i] = (bitstr _ s.accLen)[i]'(by simpa using h) from rfl, bitstr_getElem,
    Nat.testBit_shiftRight]
  congr 1
  omega

@[simp] theorem pendingBits_length (s : State) : (pendingBits s).length = s.accLen := bitstr_length _ _

/-- The bits of a number divisible by a power of two are zero below it (R19). -/
theorem testBit_of_mod_eq_zero {v k j : Nat} (h : v % 2 ^ k = 0) (hj : j < k) : v.testBit j = false := by
  have := Nat.testBit_mod_two_pow v k j
  rw [h] at this
  simpa [hj] using this.symm

/-- The word WBITS emits is the first 16 bits of the joined stream (R71): `A` the accumulator, `a` its length. -/
theorem joined_take {s : State} {code len : Nat} (ha : s.accLen ≤ 15)
    (hz : s.accValue.toNat % 2 ^ (16 - s.accLen) = 0) (hcode : code < 2 ^ len) (h : 16 ≤ s.accLen + len) :
    (pendingBits s ++ bitstr code len).take 16 =
      bitstr (s.accValue.toNat ||| code >>> (s.accLen + len - 16)) 16 := by
  apply bitstr_ext
  · simp; omega
  · intro i hi
    have hi16 : i < 16 := by simp only [List.length_take] at hi; omega
    rw [List.getElem_take, Nat.testBit_or, Nat.testBit_shiftRight]
    by_cases hia : i < s.accLen
    · rw [List.getElem_append_left (by simpa using hia), pendingBits_getElem (by omega)]
      have hf : code.testBit (s.accLen + len - 16 + (16 - 1 - i)) = false :=
        Nat.testBit_lt_two_pow (Nat.lt_of_lt_of_le hcode (Nat.pow_le_pow_right (by decide) (by omega)))
      rw [hf, Bool.or_false]
    · rw [List.getElem_append_right (by simpa using hia), bitstr_getElem,
        testBit_of_mod_eq_zero hz (show 16 - 1 - i < 16 - s.accLen by omega), Bool.false_or]
      congr 1
      simp
      omega

/-- What WBITS keeps is the joined stream past its first 16 bits (R71). -/
theorem joined_drop {s t : State} {code len : Nat} (ha : s.accLen ≤ 15) (hlen : len ≤ 16)
    (h : 16 ≤ s.accLen + len) (hn : t.accLen = s.accLen + len - 16)
    (hv : t.accValue = BitVec.ofNat 16 (code <<< (16 - (s.accLen + len - 16)))) :
    pendingBits t = (pendingBits s ++ bitstr code len).drop 16 := by
  apply List.ext_getElem
  · simp [hn]
  · intro i h1 h2
    rw [pendingBits_length, hn] at h1
    rw [pendingBits_getElem (by omega), List.getElem_drop, List.getElem_append_right (by simp; omega),
      bitstr_getElem, hv, BitVec.toNat_ofNat, Nat.testBit_mod_two_pow, Nat.testBit_shiftLeft]
    simp only [show 15 - i < 16 by omega, decide_true, Bool.true_and,
      show 15 - i ≥ 16 - (s.accLen + len - 16) by omega, pendingBits_length]
    congr 1
    omega

/-- A merged code follows the pending bits (R71, conflict C2). -/
theorem joined_merge {s t : State} {code len : Nat} (hcode : code < 2 ^ len)
    (hz : s.accValue.toNat % 2 ^ (16 - s.accLen) = 0) (h : s.accLen + len < 16) (hn : t.accLen = s.accLen + len)
    (hv : t.accValue = BitVec.ofNat 16 (s.accValue.toNat ||| code <<< (16 - (s.accLen + len)))) :
    pendingBits t = pendingBits s ++ bitstr code len := by
  apply List.ext_getElem
  · simp [hn]
  · intro i h1 h2
    rw [pendingBits_length, hn] at h1
    rw [pendingBits_getElem (by omega), hv, BitVec.toNat_ofNat, Nat.testBit_mod_two_pow, Nat.testBit_or,
      Nat.testBit_shiftLeft]
    simp only [show 15 - i < 16 by omega, decide_true, Bool.true_and,
      show 15 - i ≥ 16 - (s.accLen + len) by omega]
    by_cases hia : i < s.accLen
    · rw [List.getElem_append_left (by simpa using hia), pendingBits_getElem (by omega)]
      have hf : code.testBit (15 - i - (16 - (s.accLen + len))) = false :=
        Nat.testBit_lt_two_pow (Nat.lt_of_lt_of_le hcode (Nat.pow_le_pow_right (by decide) (by omega)))
      rw [hf, Bool.or_false]
    · rw [List.getElem_append_right (by simpa using hia), bitstr_getElem,
        testBit_of_mod_eq_zero hz (show 15 - i < 16 - s.accLen by omega), Bool.false_or]
      congr 1
      simp
      omega

/-- Zeros below what WBITS keeps (R19). -/
theorem kept_mod (code c : Nat) (hc : c ≤ 16) :
    (BitVec.ofNat 16 (code <<< (16 - c))).toNat % 2 ^ (16 - c) = 0 := by
  rw [BitVec.toNat_ofNat, Nat.mod_mod_of_dvd _ (Nat.pow_dvd_pow 2 (by omega)), Nat.shiftLeft_eq, Nat.mul_mod_left]

/-- Zeros below the merged bits (R19). -/
theorem merged_mod {v code a len : Nat} (hz : v % 2 ^ (16 - a) = 0) (h : a + len < 16) :
    (BitVec.ofNat 16 (v ||| code <<< (16 - (a + len)))).toNat % 2 ^ (16 - (a + len)) = 0 := by
  rw [BitVec.toNat_ofNat, Nat.mod_mod_of_dvd _ (Nat.pow_dvd_pow 2 (by omega))]
  apply Nat.eq_of_testBit_eq
  intro j
  rw [Nat.testBit_mod_two_pow, Nat.zero_testBit, Nat.testBit_or, Nat.testBit_shiftLeft]
  by_cases hj : j < 16 - (a + len)
  · simp [hj, testBit_of_mod_eq_zero hz (show j < 16 - a by omega), show ¬ 16 - (a + len) ≤ j by omega]
  · simp [hj]

/-- `n` one-bits (R7). -/
theorem bitstr_ones (n : Nat) : bitstr (2 ^ n - 1) n = List.replicate n true := by
  apply List.ext_getElem
  · simp
  · intro i h1 h2
    rw [bitstr_length] at h1
    rw [bitstr_getElem, Nat.testBit_two_pow_sub_one, List.getElem_replicate]
    simp; omega

/-- The operand bits above LEN do not reach the bit string (R53). -/
theorem bitstr_mod (v n : Nat) : bitstr (v % 2 ^ n) n = bitstr v n := by
  apply List.ext_getElem
  · simp
  · intro i h1 h2
    rw [bitstr_length] at h1
    rw [bitstr_getElem, bitstr_getElem, Nat.testBit_mod_two_pow]
    simp [show n - 1 - i < n by omega]

end Sys2Proof.Machine
end

