-- ==== Sys2Proof/Laws/Memory.lean ====
section
/-! SUPPORT. The laws of the output buffer's bytes: a read after a write, the clearing of a range, the canonical form
and the bound on offsets, each kept by every operation. -/

namespace Sys2Proof.Machine

/-- Every listed offset lies below `n`. -/
abbrev Memory.below (m : Memory) (n : Nat) : Prop := ∀ cell ∈ m, cell.1 < n

theorem Memory.wf_cons {k : Nat} {c : Byte} {rest : Memory} :
    Memory.wf ((k, c) :: rest) = true ↔
      c ≠ Memory.unlisted ∧ (∀ cell ∈ rest, k < cell.1) ∧ Memory.wf rest = true := by
  simp [Memory.wf, and_assoc]

/-- The empty list is the memory of reset. -/
theorem Memory.wf_nil : Memory.wf [] = true := rfl

theorem State.reset_storage_wf : Memory.wf State.reset.storage = true := rfl

/-- An offset below every listed one reads as unlisted. -/
theorem Memory.read_of_lt {m : Memory} {a : Nat} (h : ∀ cell ∈ m, a < cell.1) :
    Memory.read m a = Memory.unlisted := by
  induction m with
  | nil => rfl
  | cons cell rest ih =>
    obtain ⟨k, c⟩ := cell
    have hk : a < k := h (k, c) (by simp)
    rw [Memory.read, if_neg (by omega)]
    exact ih fun cell hc => h cell (by simp [hc])

/-- A write leaves every other offset as it was. -/
theorem Memory.read_write_other (m : Memory) {a a' : Nat} (b : Byte) (h : a' ≠ a) :
    Memory.read (Memory.write m a b) a' = Memory.read m a' := by
  induction m with
  | nil => by_cases hb : b = Memory.unlisted <;> simp [Memory.write, Memory.read, hb, h.symm]
  | cons cell rest ih =>
    obtain ⟨k, c⟩ := cell
    by_cases hk : k < a
    · simp only [Memory.write, if_pos hk, Memory.read, ih]
    · by_cases hka : k = a <;> by_cases hb : b = Memory.unlisted <;>
        simp [Memory.write, Memory.read, hka, hb, hk, h.symm]

/-- A read after a write to the same offset gives the byte written. -/
theorem Memory.read_write_same {m : Memory} (hm : Memory.wf m = true) (a : Nat) (b : Byte) :
    Memory.read (Memory.write m a b) a = b := by
  induction m with
  | nil => by_cases hb : b = Memory.unlisted <;> simp [Memory.write, Memory.read, hb]
  | cons cell rest ih =>
    obtain ⟨k, c⟩ := cell
    obtain ⟨_, hlow, hrest⟩ := Memory.wf_cons.mp hm
    by_cases hk : k < a
    · simp [Memory.write, if_pos hk, Memory.read, Nat.ne_of_lt hk, ih hrest]
    · by_cases hb : b = Memory.unlisted
      · have : Memory.read (Memory.write ((k, c) :: rest) a b) a = Memory.unlisted := by
          apply Memory.read_of_lt
          intro cell hc
          by_cases hka : k = a
          · simp only [Memory.write, if_neg hk, if_pos hka, if_pos hb] at hc
            exact hka ▸ hlow cell hc
          · simp only [Memory.write, if_neg hk, if_neg hka, if_pos hb] at hc
            rcases List.mem_cons.mp hc with rfl | hc
            · show a < k
              omega
            · have := hlow cell hc
              omega
        rw [this, hb]
      · simp [Memory.write, if_neg hk, hb, Memory.read]

theorem Memory.read_write {m : Memory} (hm : Memory.wf m = true) (a a' : Nat) (b : Byte) :
    Memory.read (Memory.write m a b) a' = if a' = a then b else Memory.read m a' := by
  by_cases h : a' = a
  · subst h
    rw [if_pos rfl, Memory.read_write_same hm]
  · rw [if_neg h, Memory.read_write_other m b h]

/-- A cell of a written memory is an old one or the one written. -/
theorem Memory.mem_write {m : Memory} {a : Nat} {b : Byte} {cell : Host.Cell}
    (h : cell ∈ Memory.write m a b) : cell ∈ m ∨ cell = (a, b) := by
  induction m with
  | nil =>
    by_cases hb : b = Memory.unlisted
    · simp [Memory.write, hb] at h
    · simpa [Memory.write, hb] using h
  | cons c0 rest ih =>
    obtain ⟨k, c⟩ := c0
    by_cases hk : k < a
    · rw [Memory.write, if_pos hk] at h
      rcases List.mem_cons.mp h with h | h
      · exact .inl (by simp [h])
      · rcases ih h with h | h
        · exact .inl (by simp [h])
        · exact .inr h
    · by_cases hka : k = a <;> by_cases hb : b = Memory.unlisted <;>
        simp only [Memory.write, if_neg hk, hka, hb, if_true, if_false] at h <;> simp_all <;> tauto

/-- A write keeps the canonical form. -/
theorem Memory.write_wf {m : Memory} (hm : Memory.wf m = true) (a : Nat) (b : Byte) :
    Memory.wf (Memory.write m a b) = true := by
  induction m with
  | nil => by_cases hb : b = Memory.unlisted <;> simp [Memory.write, Memory.wf, hb]
  | cons cell rest ih =>
    obtain ⟨k, c⟩ := cell
    obtain ⟨hc, hlow, hrest⟩ := Memory.wf_cons.mp hm
    by_cases hk : k < a
    · rw [Memory.write, if_pos hk, Memory.wf_cons]
      refine ⟨hc, fun cell h => ?_, ih hrest⟩
      rcases Memory.mem_write h with h | rfl
      · exact hlow cell h
      · exact hk
    · by_cases hka : k = a
      · subst hka
        by_cases hb : b = Memory.unlisted
        · simpa [Memory.write, hb] using hrest
        · have : Memory.write ((k, c) :: rest) k b = (k, b) :: rest := by simp [Memory.write, hb]
          rw [this, Memory.wf_cons]
          exact ⟨hb, hlow, hrest⟩
      · by_cases hb : b = Memory.unlisted
        · simpa [Memory.write, hk, hka, hb] using hm
        · have : Memory.write ((k, c) :: rest) a b = (a, b) :: (k, c) :: rest := by
            simp [Memory.write, hk, hka, hb]
          rw [this, Memory.wf_cons]
          refine ⟨hb, fun cell h => ?_, hm⟩
          rcases List.mem_cons.mp h with rfl | h
          · show a < k
            omega
          · have := hlow cell h
            omega

theorem Memory.write_below {m : Memory} {a n : Nat} (hm : Memory.below m n) (ha : a < n) (b : Byte) :
    Memory.below (Memory.write m a b) n := by
  intro cell h
  rcases Memory.mem_write h with h | rfl
  · exact hm cell h
  · exact ha

theorem Memory.clear_wf {m : Memory} (hm : Memory.wf m = true) (n : Nat) :
    Memory.wf (Memory.clear m n) = true := by
  induction n with
  | zero => exact hm
  | succ n ih => exact Memory.write_wf ih n _

theorem Memory.clear_below {m : Memory} {c : Nat} (hm : Memory.below m c) {n : Nat} (hn : n ≤ c) :
    Memory.below (Memory.clear m n) c := by
  induction n with
  | zero => exact hm
  | succ n ih => exact Memory.write_below (ih (by omega)) (by omega) _

/-- After clearing the first `n` offsets, they read 0x00 and the others as before (R34). -/
theorem Memory.read_clear {m : Memory} (hm : Memory.wf m = true) (n a : Nat) :
    Memory.read (Memory.clear m n) a = if a < n then 0x00 else Memory.read m a := by
  induction n with
  | zero => simp [Memory.clear]
  | succ n ih =>
    rw [Memory.clear, Memory.read_write (Memory.clear_wf hm n), ih]
    by_cases h : a = n
    · simp [h]
    · by_cases h' : a < n
      · simp [h, h', Nat.lt_succ_of_lt h']
      · simp [h, h', show ¬ a < n + 1 by omega]

@[simp] theorem Memory.length_slice (m : Memory) (n : Nat) : (Memory.slice m n).length = n := by
  simp [Memory.slice]

@[simp] theorem Memory.slice_zero (m : Memory) : Memory.slice m 0 = [] := rfl

/-- The slice depends on the offsets it covers alone. -/
theorem Memory.slice_congr {m m' : Memory} {n : Nat}
    (h : ∀ a, a < n → Memory.read m a = Memory.read m' a) : Memory.slice m n = Memory.slice m' n := by
  unfold Memory.slice
  apply List.map_congr_left
  intro a ha
  exact h a (List.mem_range.mp ha)

/-- Writing at the slice's end and taking one more byte appends the byte written. -/
theorem Memory.slice_write {m : Memory} (hm : Memory.wf m = true) (n : Nat) (b : Byte) :
    Memory.slice (Memory.write m n b) (n + 1) = Memory.slice m n ++ [b] := by
  rw [Memory.slice, List.range_succ, List.map_append, List.map_singleton, Memory.read_write_same hm]
  congr 1
  apply List.map_congr_left
  intro a ha
  exact Memory.read_write_other m b (by have := List.mem_range.mp ha; omega)

end Sys2Proof.Machine
end

