-- ==== Sys2Proof/Laws/State.lean ====
section
/-! SUPPORT. One lemma per field of State per named update: what the field holds afterwards. -/

namespace Sys2Proof.Machine

/-! ### setAcc -/

@[simp] theorem setAcc_accValue (s : State) (v : Half) (n : Nat) : (setAcc s v n).accValue = v := rfl
@[simp] theorem setAcc_accLen (s : State) (v : Half) (n : Nat) : (setAcc s v n).accLen = n := rfl
@[simp] theorem setAcc_storage (s : State) (v : Half) (n : Nat) : (setAcc s v n).storage = s.storage := rfl
@[simp] theorem setAcc_cursor (s : State) (v : Half) (n : Nat) : (setAcc s v n).cursor = s.cursor := rfl
@[simp] theorem setAcc_err (s : State) (v : Half) (n : Nat) : (setAcc s v n).err = s.err := rfl
@[simp] theorem setAcc_errCode (s : State) (v : Half) (n : Nat) : (setAcc s v n).errCode = s.errCode := rfl
@[simp] theorem setAcc_errInfo (s : State) (v : Half) (n : Nat) : (setAcc s v n).errInfo = s.errInfo := rfl
@[simp] theorem setAcc_capacity (s : State) (v : Half) (n : Nat) : (setAcc s v n).capacity = s.capacity := rfl
@[simp] theorem setAcc_booted (s : State) (v : Half) (n : Nat) : (setAcc s v n).booted = s.booted := rfl
@[simp] theorem setAcc_hostQueue (s : State) (v : Half) (n : Nat) : (setAcc s v n).hostQueue = s.hostQueue := rfl
@[simp] theorem setAcc_sinkAnswers (s : State) (v : Half) (n : Nat) : (setAcc s v n).sinkAnswers = s.sinkAnswers := rfl
@[simp] theorem setAcc_sinkLog (s : State) (v : Half) (n : Nat) : (setAcc s v n).sinkLog = s.sinkLog := rfl
@[simp] theorem setAcc_sessionStart (s : State) (v : Half) (n : Nat) : (setAcc s v n).sessionStart = s.sessionStart := rfl

/-! ### storeByte -/

@[simp] theorem storeByte_accValue (s : State) (b : Byte) : (storeByte s b).accValue = s.accValue := rfl
@[simp] theorem storeByte_accLen (s : State) (b : Byte) : (storeByte s b).accLen = s.accLen := rfl
@[simp] theorem storeByte_storage (s : State) (b : Byte) : (storeByte s b).storage = Memory.write s.storage s.cursor b := rfl
@[simp] theorem storeByte_cursor (s : State) (b : Byte) : (storeByte s b).cursor = s.cursor + 1 := rfl
@[simp] theorem storeByte_err (s : State) (b : Byte) : (storeByte s b).err = s.err := rfl
@[simp] theorem storeByte_errCode (s : State) (b : Byte) : (storeByte s b).errCode = s.errCode := rfl
@[simp] theorem storeByte_errInfo (s : State) (b : Byte) : (storeByte s b).errInfo = s.errInfo := rfl
@[simp] theorem storeByte_capacity (s : State) (b : Byte) : (storeByte s b).capacity = s.capacity := rfl
@[simp] theorem storeByte_booted (s : State) (b : Byte) : (storeByte s b).booted = s.booted := rfl
@[simp] theorem storeByte_hostQueue (s : State) (b : Byte) : (storeByte s b).hostQueue = s.hostQueue := rfl
@[simp] theorem storeByte_sinkAnswers (s : State) (b : Byte) : (storeByte s b).sinkAnswers = s.sinkAnswers := rfl
@[simp] theorem storeByte_sinkLog (s : State) (b : Byte) : (storeByte s b).sinkLog = s.sinkLog := rfl
@[simp] theorem storeByte_sessionStart (s : State) (b : Byte) : (storeByte s b).sessionStart = s.sessionStart := rfl

/-! ### emptyBuffer -/

@[simp] theorem emptyBuffer_accValue (s : State) : (emptyBuffer s).accValue = s.accValue := rfl
@[simp] theorem emptyBuffer_accLen (s : State) : (emptyBuffer s).accLen = s.accLen := rfl
@[simp] theorem emptyBuffer_storage (s : State) : (emptyBuffer s).storage = Memory.clear s.storage s.cursor := rfl
@[simp] theorem emptyBuffer_cursor (s : State) : (emptyBuffer s).cursor = 0 := rfl
@[simp] theorem emptyBuffer_err (s : State) : (emptyBuffer s).err = s.err := rfl
@[simp] theorem emptyBuffer_errCode (s : State) : (emptyBuffer s).errCode = s.errCode := rfl
@[simp] theorem emptyBuffer_errInfo (s : State) : (emptyBuffer s).errInfo = s.errInfo := rfl
@[simp] theorem emptyBuffer_capacity (s : State) : (emptyBuffer s).capacity = s.capacity := rfl
@[simp] theorem emptyBuffer_booted (s : State) : (emptyBuffer s).booted = s.booted := rfl
@[simp] theorem emptyBuffer_hostQueue (s : State) : (emptyBuffer s).hostQueue = s.hostQueue := rfl
@[simp] theorem emptyBuffer_sinkAnswers (s : State) : (emptyBuffer s).sinkAnswers = s.sinkAnswers := rfl
@[simp] theorem emptyBuffer_sinkLog (s : State) : (emptyBuffer s).sinkLog = s.sinkLog := rfl
@[simp] theorem emptyBuffer_sessionStart (s : State) : (emptyBuffer s).sessionStart = s.sessionStart := rfl

/-! ### recordTransaction -/

@[simp] theorem recordTransaction_accValue (s : State) (r : List Byte) (k : Nat) : (recordTransaction s r k).accValue = s.accValue := rfl
@[simp] theorem recordTransaction_accLen (s : State) (r : List Byte) (k : Nat) : (recordTransaction s r k).accLen = s.accLen := rfl
@[simp] theorem recordTransaction_storage (s : State) (r : List Byte) (k : Nat) : (recordTransaction s r k).storage = s.storage := rfl
@[simp] theorem recordTransaction_cursor (s : State) (r : List Byte) (k : Nat) : (recordTransaction s r k).cursor = s.cursor := rfl
@[simp] theorem recordTransaction_err (s : State) (r : List Byte) (k : Nat) : (recordTransaction s r k).err = s.err := rfl
@[simp] theorem recordTransaction_errCode (s : State) (r : List Byte) (k : Nat) : (recordTransaction s r k).errCode = s.errCode := rfl
@[simp] theorem recordTransaction_errInfo (s : State) (r : List Byte) (k : Nat) : (recordTransaction s r k).errInfo = s.errInfo := rfl
@[simp] theorem recordTransaction_capacity (s : State) (r : List Byte) (k : Nat) : (recordTransaction s r k).capacity = s.capacity := rfl
@[simp] theorem recordTransaction_booted (s : State) (r : List Byte) (k : Nat) : (recordTransaction s r k).booted = s.booted := rfl
@[simp] theorem recordTransaction_hostQueue (s : State) (r : List Byte) (k : Nat) : (recordTransaction s r k).hostQueue = s.hostQueue := rfl
@[simp] theorem recordTransaction_sinkAnswers (s : State) (r : List Byte) (k : Nat) : (recordTransaction s r k).sinkAnswers = s.sinkAnswers.tail := rfl
@[simp] theorem recordTransaction_sinkLog (s : State) (r : List Byte) (k : Nat) : (recordTransaction s r k).sinkLog = s.sinkLog ++ [⟨r, k⟩] := rfl
@[simp] theorem recordTransaction_sessionStart (s : State) (r : List Byte) (k : Nat) : (recordTransaction s r k).sessionStart = s.sessionStart := rfl

/-! ### raiseError -/

@[simp] theorem raiseError_accValue (c : ErrorCause) (w : Word) (s : State) : (raiseError c w s).accValue = s.accValue := rfl
@[simp] theorem raiseError_accLen (c : ErrorCause) (w : Word) (s : State) : (raiseError c w s).accLen = s.accLen := rfl
@[simp] theorem raiseError_storage (c : ErrorCause) (w : Word) (s : State) : (raiseError c w s).storage = s.storage := rfl
@[simp] theorem raiseError_cursor (c : ErrorCause) (w : Word) (s : State) : (raiseError c w s).cursor = s.cursor := rfl
@[simp] theorem raiseError_err (c : ErrorCause) (w : Word) (s : State) : (raiseError c w s).err = true := rfl
@[simp] theorem raiseError_errCode (c : ErrorCause) (w : Word) (s : State) : (raiseError c w s).errCode = causeCode c := rfl
@[simp] theorem raiseError_errInfo (c : ErrorCause) (w : Word) (s : State) : (raiseError c w s).errInfo = w := rfl
@[simp] theorem raiseError_capacity (c : ErrorCause) (w : Word) (s : State) : (raiseError c w s).capacity = s.capacity := rfl
@[simp] theorem raiseError_booted (c : ErrorCause) (w : Word) (s : State) : (raiseError c w s).booted = s.booted := rfl
@[simp] theorem raiseError_hostQueue (c : ErrorCause) (w : Word) (s : State) : (raiseError c w s).hostQueue = s.hostQueue := rfl
@[simp] theorem raiseError_sinkAnswers (c : ErrorCause) (w : Word) (s : State) : (raiseError c w s).sinkAnswers = s.sinkAnswers := rfl
@[simp] theorem raiseError_sinkLog (c : ErrorCause) (w : Word) (s : State) : (raiseError c w s).sinkLog = s.sinkLog := rfl
@[simp] theorem raiseError_sessionStart (c : ErrorCause) (w : Word) (s : State) : (raiseError c w s).sessionStart = s.sessionStart := rfl

/-! ### resetEvent -/

@[simp] theorem resetEvent_accValue (s : State) : (resetEvent s).accValue = 0 := rfl
@[simp] theorem resetEvent_accLen (s : State) : (resetEvent s).accLen = 0 := rfl
@[simp] theorem resetEvent_storage (s : State) : (resetEvent s).storage = [] := rfl
@[simp] theorem resetEvent_cursor (s : State) : (resetEvent s).cursor = 0 := rfl
@[simp] theorem resetEvent_err (s : State) : (resetEvent s).err = false := rfl
@[simp] theorem resetEvent_errCode (s : State) : (resetEvent s).errCode = 0 := rfl
@[simp] theorem resetEvent_errInfo (s : State) : (resetEvent s).errInfo = 0 := rfl
@[simp] theorem resetEvent_capacity (s : State) : (resetEvent s).capacity = s.capacity := rfl
@[simp] theorem resetEvent_booted (s : State) : (resetEvent s).booted = true := rfl
@[simp] theorem resetEvent_hostQueue (s : State) : (resetEvent s).hostQueue = s.hostQueue := rfl
@[simp] theorem resetEvent_sinkAnswers (s : State) : (resetEvent s).sinkAnswers = s.sinkAnswers := rfl
@[simp] theorem resetEvent_sinkLog (s : State) : (resetEvent s).sinkLog = s.sinkLog := rfl
@[simp] theorem resetEvent_sessionStart (s : State) : (resetEvent s).sessionStart = s.sinkLog.length := rfl

/-! ### dropEvent -/

@[simp] theorem dropEvent_accValue (s : State) : (dropEvent s).accValue = s.accValue := rfl
@[simp] theorem dropEvent_accLen (s : State) : (dropEvent s).accLen = s.accLen := rfl
@[simp] theorem dropEvent_storage (s : State) : (dropEvent s).storage = s.storage := rfl
@[simp] theorem dropEvent_cursor (s : State) : (dropEvent s).cursor = s.cursor := rfl
@[simp] theorem dropEvent_err (s : State) : (dropEvent s).err = s.err := rfl
@[simp] theorem dropEvent_errCode (s : State) : (dropEvent s).errCode = s.errCode := rfl
@[simp] theorem dropEvent_errInfo (s : State) : (dropEvent s).errInfo = s.errInfo := rfl
@[simp] theorem dropEvent_capacity (s : State) : (dropEvent s).capacity = s.capacity := rfl
@[simp] theorem dropEvent_booted (s : State) : (dropEvent s).booted = s.booted := rfl
@[simp] theorem dropEvent_hostQueue (s : State) : (dropEvent s).hostQueue = s.hostQueue.tail := rfl
@[simp] theorem dropEvent_sinkAnswers (s : State) : (dropEvent s).sinkAnswers = s.sinkAnswers := rfl
@[simp] theorem dropEvent_sinkLog (s : State) : (dropEvent s).sinkLog = s.sinkLog := rfl
@[simp] theorem dropEvent_sessionStart (s : State) : (dropEvent s).sessionStart = s.sessionStart := rfl

/-! ### presentCommand -/

@[simp] theorem presentCommand_accValue (s : State) (w : Word) : (presentCommand s w).accValue = s.accValue := rfl
@[simp] theorem presentCommand_accLen (s : State) (w : Word) : (presentCommand s w).accLen = s.accLen := rfl
@[simp] theorem presentCommand_storage (s : State) (w : Word) : (presentCommand s w).storage = s.storage := rfl
@[simp] theorem presentCommand_cursor (s : State) (w : Word) : (presentCommand s w).cursor = s.cursor := rfl
@[simp] theorem presentCommand_err (s : State) (w : Word) : (presentCommand s w).err = s.err := rfl
@[simp] theorem presentCommand_errCode (s : State) (w : Word) : (presentCommand s w).errCode = s.errCode := rfl
@[simp] theorem presentCommand_errInfo (s : State) (w : Word) : (presentCommand s w).errInfo = s.errInfo := rfl
@[simp] theorem presentCommand_capacity (s : State) (w : Word) : (presentCommand s w).capacity = s.capacity := rfl
@[simp] theorem presentCommand_booted (s : State) (w : Word) : (presentCommand s w).booted = s.booted := rfl
@[simp] theorem presentCommand_hostQueue (s : State) (w : Word) : (presentCommand s w).hostQueue = .command w :: s.hostQueue := rfl
@[simp] theorem presentCommand_sinkAnswers (s : State) (w : Word) : (presentCommand s w).sinkAnswers = s.sinkAnswers := rfl
@[simp] theorem presentCommand_sinkLog (s : State) (w : Word) : (presentCommand s w).sinkLog = s.sinkLog := rfl
@[simp] theorem presentCommand_sessionStart (s : State) (w : Word) : (presentCommand s w).sessionStart = s.sessionStart := rfl

end Sys2Proof.Machine
end

