-- ==== Sys2Proof/Laws/Ops.lean ====
section
/-! SUPPORT. What each shared operation can do, said once: sequencing (R9, R86), the sink's answer (R37), the flush
(R34), one appended byte (R33), and a list of appended bytes, of which every command's output is made (R36, R69). -/

namespace Sys2Proof.Machine

/-! ### Sequencing -/

@[simp] theorem Progress.done_andThen (s : State) (f : State → Progress) : (Progress.done s).andThen f = f s := rfl

@[simp] theorem Progress.raised_andThen (s : State) (f : State → Progress) :
    (Progress.raised s).andThen f = .raised s := rfl

@[simp] theorem Progress.broken_andThen (e : Fault) (f : State → Progress) :
    (Progress.broken e).andThen f = .broken e := rfl

@[simp] theorem Progress.done_outcome (s : State) : (Progress.done s).outcome = .next s := rfl

@[simp] theorem Progress.raised_outcome (s : State) : (Progress.raised s).outcome = .next s := rfl

@[simp] theorem Progress.broken_outcome (e : Fault) : (Progress.broken e).outcome = .fault e := rfl

theorem Progress.andThen_assoc (p : Progress) (f g : State → Progress) :
    (p.andThen f).andThen g = p.andThen fun s => (f s).andThen g := by
  cases p <;> rfl

theorem Progress.andThen_done (p : Progress) : p.andThen .done = p := by
  cases p <;> rfl

/-- A command answers a next state exactly where it was discarded, completed or ended by a `raise`. -/
theorem runCommand_next {body : State → Progress} {s t : State} :
    runCommand body s = .next t ↔
      (s.err = true ∧ t = s) ∨ (s.err = false ∧ (body s = .done t ∨ body s = .raised t)) := by
  unfold runCommand
  cases h : s.err
  · cases hb : body s <;> simp [eq_comm]
  · simp [eq_comm]

theorem runCommand_live {body : State → Progress} {s : State} (h : s.err = false) :
    runCommand body s = (body s).outcome := by
  simp [runCommand, h]

theorem runCommand_discarded {body : State → Progress} {s : State} (h : s.err = true) :
    runCommand body s = .next s := by
  simp [runCommand, h]

/-! ### The sink's answer -/

/-- The law of R37. -/
theorem sinkAnswer_le (s : State) (request : List Byte) : sinkAnswer s request ≤ request.length :=
  Nat.min_le_right _ _

theorem offeredAnswer_eq (s : State) (request : List Byte) : offeredAnswer s request = answerAhead s 0 request := by
  unfold offeredAnswer answerAhead
  cases s.sinkAnswers <;> simp

/-- A sink that accepts the next transaction answers `k = n`. -/
theorem sinkAnswer_of_accepts {s : State} {request : List Byte} {n : Nat} (h : acceptsNext s (n + 1))
    (hr : request.length ≤ s.capacity) : sinkAnswer s request = request.length := by
  unfold sinkAnswer
  rw [offeredAnswer_eq]
  exact Nat.min_eq_right (h 0 (by omega) request hr)

/-! ### The flush -/

/-- The state a failed flush leaves (R34, R87). -/
def failedFlush (s : State) : State :=
  raiseError .sinkWrite (BitVec.ofNat 32 (sinkAnswer s (heldBytes s)))
    (recordTransaction s (heldBytes s) (sinkAnswer s (heldBytes s)))

/-- The state a successful flush of at least one byte leaves (R34). -/
def flushedState (s : State) : State :=
  emptyBuffer (recordTransaction s (heldBytes s) s.cursor)

@[simp] theorem heldBytes_length (s : State) : (heldBytes s).length = s.cursor := Memory.length_slice _ _

/-- Everything `FlushBuffer` can do (R34, R35). -/
theorem flushBuffer_cases (s : State) :
    (s.cursor = 0 ∧ flushBuffer s = .done s) ∨
    (s.cursor ≠ 0 ∧ s.capacity < s.cursor ∧ flushBuffer s = .broken .bufferOverrun) ∨
    (s.cursor ≠ 0 ∧ s.cursor ≤ s.capacity ∧ sinkAnswer s (heldBytes s) < s.cursor ∧
      flushBuffer s = .raised (failedFlush s)) ∨
    (s.cursor ≠ 0 ∧ s.cursor ≤ s.capacity ∧ sinkAnswer s (heldBytes s) = s.cursor ∧
      flushBuffer s = .done (flushedState s)) := by
  by_cases h0 : s.cursor = 0
  · exact .inl ⟨h0, by simp [flushBuffer, h0]⟩
  · by_cases hc : s.capacity < s.cursor
    · exact .inr (.inl ⟨h0, hc, by simp [flushBuffer, h0, hc]⟩)
    · have hle := sinkAnswer_le s (heldBytes s)
      rw [heldBytes_length] at hle
      by_cases hk : sinkAnswer s (heldBytes s) < s.cursor
      · refine .inr (.inr (.inl ⟨h0, by omega, hk, ?_⟩))
        unfold heldBytes at hk
        simp [flushBuffer, h0, hc, hk, failedFlush, heldBytes]
      · have hk' : sinkAnswer s (heldBytes s) = s.cursor := by omega
        refine .inr (.inr (.inr ⟨h0, by omega, hk', ?_⟩))
        unfold heldBytes at hk hk'
        simp [flushBuffer, h0, hc, hk', flushedState, heldBytes]

/-! ### One appended byte -/

/-- Everything `Emit` can do (R33). -/
theorem emit_cases (b : Byte) (s : State) :
    (s.capacity ≤ s.cursor ∧ emit b s = .broken .bufferOverrun) ∨
    (s.cursor + 1 < s.capacity ∧ emit b s = .done (storeByte s b)) ∨
    (s.cursor + 1 = s.capacity ∧ sinkAnswer (storeByte s b) (heldBytes (storeByte s b)) < s.capacity ∧
      emit b s = .raised (failedFlush (storeByte s b))) ∨
    (s.cursor + 1 = s.capacity ∧ sinkAnswer (storeByte s b) (heldBytes (storeByte s b)) = s.capacity ∧
      emit b s = .done (flushedState (storeByte s b))) := by
  by_cases hc : s.capacity ≤ s.cursor
  · exact .inl ⟨hc, by simp [emit, hc]⟩
  · by_cases h1 : s.cursor + 1 = s.capacity
    · have he : emit b s = flushBuffer (storeByte s b) := by simp [emit, h1, show ¬ s.capacity ≤ s.cursor from hc]
      rcases flushBuffer_cases (storeByte s b) with h | h | h | h
      · simp at h
      · simp at h; omega
      · refine .inr (.inr (.inl ⟨h1, ?_, he.trans h.2.2.2⟩))
        have := h.2.2.1
        rw [storeByte_cursor, h1] at this
        exact this
      · refine .inr (.inr (.inr ⟨h1, ?_, he.trans h.2.2.2⟩))
        have := h.2.2.1
        rw [storeByte_cursor, h1] at this
        exact this
    · exact .inr (.inl ⟨by omega, by simp [emit, h1, hc]⟩)

theorem heldBytes_storeByte {s : State} (hm : Memory.wf s.storage = true) (b : Byte) :
    heldBytes (storeByte s b) = heldBytes s ++ [b] := by
  simp [heldBytes, Memory.slice_write hm]

/-! ### A list of appended bytes -/

theorem emitAll_nil (s : State) : emitAll [] s = .done s := rfl

theorem emitAll_cons (b : Byte) (rest : List Byte) (s : State) :
    emitAll (b :: rest) s = (emit b s).andThen (emitAll rest) := rfl

theorem emitAll_append (x y : List Byte) (s : State) :
    emitAll (x ++ y) s = (emitAll x s).andThen (emitAll y) := by
  induction x generalizing s with
  | nil => rfl
  | cons b rest ih =>
    rw [List.cons_append, emitAll_cons, emitAll_cons, Progress.andThen_assoc]
    congr 1
    funext t
    exact ih t

theorem stuffed_append (x y : List Byte) : stuffed (x ++ y) = stuffed x ++ stuffed y := by
  simp [stuffed]

/-- `EmitStuffed` appends the stuffed byte (R69). -/
theorem emitStuffed_eq (b : Byte) (s : State) : emitStuffed b s = emitAll (stuffed [b]) s := by
  by_cases hb : b = 0xFF
  · subst hb
    have h : stuffed [0xFF] = [0xFF, 0x00] := by decide
    rw [h, emitAll_cons]
    unfold emitStuffed
    congr 1
    funext t
    have h2 : emitAll [0x00] t = (emit 0x00 t).andThen .done := rfl
    rw [if_pos (show (0xFF : Byte) = Config.stuffTrigger from rfl), h2, Progress.andThen_done]
    rfl
  · have h : stuffed [b] = [b] := by
      unfold stuffed
      rw [List.flatMap_singleton, if_neg hb]
    rw [h, emitAll_cons]
    unfold emitStuffed
    congr 1
    funext t
    exact if_neg (show ¬ b = Config.stuffTrigger from hb)

theorem emitStuffed_pair (x y : Byte) (s : State) (f : State → Progress) :
    ((emitStuffed x s).andThen fun t => (emitStuffed y t).andThen f) = (emitAll (stuffed [x, y]) s).andThen f := by
  have h : stuffed [x, y] = stuffed [x] ++ stuffed [y] := stuffed_append [x] [y]
  rw [h, emitAll_append, Progress.andThen_assoc, emitStuffed_eq]
  congr 1
  funext t
  rw [emitStuffed_eq]

/-! ### Groups of C bytes -/

theorem fullChunks_nil (c : Nat) : fullChunks c [] = [] := by simp [fullChunks]

theorem fullChunks_short {c : Nat} {bytes : List Byte} (h : bytes.length < c) : fullChunks c bytes = [] := by
  simp [fullChunks, Nat.div_eq_of_lt h]

theorem fullChunks_exact {c : Nat} {bytes : List Byte} (hc : 0 < c) (h : bytes.length = c) :
    fullChunks c bytes = [bytes] := by
  simp [fullChunks, h, Nat.div_self hc]

/-- The groups of a longer sequence: those of its first part, then those of what is left with the rest. -/
theorem fullChunks_append {c : Nat} (hc : 0 < c) (x y : List Byte) :
    fullChunks c (x ++ y) = fullChunks c x ++ fullChunks c (x.drop (c * (x.length / c)) ++ y) := by
  have hx : c * (x.length / c) ≤ x.length := Nat.mul_div_le _ _
  have hlen : (x.drop (c * (x.length / c)) ++ y).length = x.length - c * (x.length / c) + y.length := by simp
  have hdiv : (x ++ y).length / c = x.length / c + (x.drop (c * (x.length / c)) ++ y).length / c := by
    rw [hlen, List.length_append,
      show x.length + y.length = c * (x.length / c) + (x.length - c * (x.length / c) + y.length) by omega,
      Nat.mul_add_div hc]
  unfold fullChunks
  rw [hdiv, List.range_add, List.map_append, List.map_map]
  congr 1
  · apply List.map_congr_left
    intro i hi
    have hi := List.mem_range.mp hi
    have hstep : c * i + c ≤ c * (x.length / c) := by
      rw [← Nat.mul_succ]; exact Nat.mul_le_mul_left _ hi
    rw [List.drop_append_of_le_length (by omega), List.take_append_of_le_length (by simp; omega)]
  · apply List.map_congr_left
    intro j _
    show ((x ++ y).drop (c * (x.length / c + j))).take c = _
    rw [Nat.mul_add, ← List.drop_drop, List.drop_append_of_le_length hx]

/-! ### The relation of R36 -/

theorem AppendsBytes.cursor_lt {s t : State} {bytes : List Byte} (h : AppendsBytes s bytes t) (hc : 0 < s.capacity) :
    t.cursor < s.capacity := by
  rw [h.2.1]
  exact Nat.mod_lt _ hc

theorem AppendsBytes.refl {s : State} (hc : s.cursor < s.capacity) : AppendsBytes s [] s := by
  have hl : (heldBytes s).length < s.capacity := by simpa using hc
  refine ⟨?_, ?_, ?_, ?_, ?_, rfl, rfl, rfl, rfl, rfl, rfl, rfl⟩ <;>
    simp [Nat.div_eq_of_lt hc, Nat.mod_eq_of_lt hc, fullChunks_short hl]

theorem AppendsBytes.trans {s t u : State} {x y : List Byte} (hc : 0 < s.capacity)
    (h1 : AppendsBytes s x t) (h2 : AppendsBytes t y u) : AppendsBytes s (x ++ y) u := by
  obtain ⟨log1, cur1, held1, mem1, ans1, e1, ec1, ei1, cap1, b1, q1, ss1⟩ := h1
  obtain ⟨log2, cur2, held2, mem2, ans2, e2, ec2, ei2, cap2, b2, q2, ss2⟩ := h2
  have hcap : t.capacity = s.capacity := cap1
  rw [hcap] at log2 cur2 held2 mem2 ans2 cap2
  have hx : s.capacity * ((heldBytes s ++ x).length / s.capacity) ≤ (heldBytes s ++ x).length := Nat.mul_div_le _ _
  have hlen : ((heldBytes s ++ x) ++ y).length =
      s.capacity * ((heldBytes s ++ x).length / s.capacity) + (heldBytes t ++ y).length := by
    rw [held1]
    simp only [List.length_append, List.length_drop] at hx ⊢
    omega
  have hdiv : ((heldBytes s ++ x) ++ y).length / s.capacity =
      (heldBytes s ++ x).length / s.capacity + (heldBytes t ++ y).length / s.capacity := by
    rw [hlen, Nat.mul_add_div hc]
  have hassoc : heldBytes s ++ (x ++ y) = (heldBytes s ++ x) ++ y := by simp
  unfold AppendsBytes
  simp only [hassoc]
  refine ⟨?_, ?_, ?_, ?_, ?_, by rw [e2, e1], by rw [ec2, ec1], by rw [ei2, ei1], cap2, by rw [b2, b1],
    by rw [q2, q1], by rw [ss2, ss1]⟩
  · rw [log2, log1, fullChunks_append hc (heldBytes s ++ x) y, List.map_append, List.append_assoc, ← held1]
  · rw [cur2, hlen, Nat.mul_add_mod]
  · rw [held2, hdiv, Nat.mul_add, ← List.drop_drop, List.drop_append_of_le_length hx, held1]
  · intro a ha
    have hm2 := mem2 a ha
    rw [hm2, hdiv]
    by_cases h0 : (heldBytes t ++ y).length / s.capacity = 0
    · have hge : t.cursor ≤ a := by
        have hlt : (heldBytes t ++ y).length < s.capacity := by
          rcases Nat.div_eq_zero_iff.mp h0 with h | h
          · omega
          · exact h
        rw [cur2, Nat.mod_eq_of_lt hlt] at ha
        simp at ha
        omega
      rw [h0, Nat.add_zero, if_pos (.inl rfl)]
      exact mem1 a hge
    · by_cases hca : s.capacity ≤ a
      · have hge : t.cursor ≤ a := by
          have : t.cursor < s.capacity := by rw [cur1]; exact Nat.mod_lt _ hc
          omega
        rw [if_pos (.inr hca), if_pos (.inr hca), mem1 a hge, if_pos (.inr hca)]
      · rw [if_neg (not_or.mpr ⟨h0, hca⟩), if_neg (not_or.mpr ⟨fun h => h0 (Nat.eq_zero_of_add_eq_zero_left h), hca⟩)]
  · rw [ans2, ans1, List.drop_drop, hdiv]

/-- What `Emit` leaves alone beside what `AppendsBytes` speaks of, and the form of the buffer it keeps. -/
def KeepsRest (s t : State) : Prop :=
  t.accValue = s.accValue ∧ t.accLen = s.accLen ∧
    (Memory.wf s.storage = true → Memory.wf t.storage = true) ∧
    (Memory.below s.storage s.capacity → Memory.below t.storage s.capacity)

theorem KeepsRest.refl (s : State) : KeepsRest s s := ⟨rfl, rfl, id, id⟩

theorem KeepsRest.trans {s t u : State} (hc : t.capacity = s.capacity) (h1 : KeepsRest s t) (h2 : KeepsRest t u) :
    KeepsRest s u := by
  obtain ⟨a1, b1, c1, d1⟩ := h1
  obtain ⟨a2, b2, c2, d2⟩ := h2
  rw [hc] at d2
  exact ⟨a2.trans a1, b2.trans b1, c2 ∘ c1, d2 ∘ d1⟩

theorem storeByte_keepsRest {s : State} (hc : s.cursor < s.capacity) (b : Byte) : KeepsRest s (storeByte s b) :=
  ⟨rfl, rfl, fun h => Memory.write_wf h _ _, fun h => Memory.write_below h hc _⟩

theorem storeByte_appends {s : State} (hm : Memory.wf s.storage = true) (hc : s.cursor + 1 < s.capacity) (b : Byte) :
    AppendsBytes s [b] (storeByte s b) := by
  have hl : (heldBytes s ++ [b]).length < s.capacity := by simpa using hc
  have hd : (heldBytes s ++ [b]).length / s.capacity = 0 := Nat.div_eq_of_lt hl
  refine ⟨?_, ?_, ?_, ?_, ?_, rfl, rfl, rfl, rfl, rfl, rfl, rfl⟩
  · simp [fullChunks_short hl]
  · rw [Nat.mod_eq_of_lt hl]; simp
  · rw [hd, heldBytes_storeByte hm]; simp
  · intro a ha
    rw [hd, if_pos (.inl rfl), storeByte_storage]
    rw [storeByte_cursor] at ha
    exact Memory.read_write_other _ _ (by omega)
  · rw [hd]; rfl

theorem flushedState_appends {s : State} (hm : Memory.wf s.storage = true) (hc : s.cursor + 1 = s.capacity) (b : Byte) :
    AppendsBytes s [b] (flushedState (storeByte s b)) := by
  have hl : (heldBytes s ++ [b]).length = s.capacity := by simpa using hc
  have hp : 0 < s.capacity := by omega
  have hd : (heldBytes s ++ [b]).length / s.capacity = 1 := by rw [hl, Nat.div_self hp]
  refine ⟨?_, ?_, ?_, ?_, ?_, rfl, rfl, rfl, rfl, rfl, rfl, rfl⟩
  · rw [fullChunks_exact hp hl]
    simp [flushedState, heldBytes_storeByte hm, hc]
  · rw [hl, Nat.mod_self]; rfl
  · rw [hd, Nat.mul_one, ← hl, List.drop_length]; rfl
  · intro a _
    rw [hd]
    show Memory.read (Memory.clear (Memory.write s.storage s.cursor b) (s.cursor + 1)) a = _
    rw [Memory.read_clear (Memory.write_wf hm _ _), hc]
    by_cases ha : s.capacity ≤ a
    · rw [if_neg (by omega), if_pos (.inr ha), Memory.read_write_other _ _ (by omega)]
    · rw [if_pos (by omega), if_neg (by omega)]
  · rw [hd]
    show s.sinkAnswers.tail = _
    simp

theorem flushedState_keepsRest {s : State} (hc : s.cursor + 1 = s.capacity) (b : Byte) :
    KeepsRest s (flushedState (storeByte s b)) := by
  refine ⟨rfl, rfl, fun h => Memory.clear_wf (Memory.write_wf h _ _) _, fun h => ?_⟩
  exact Memory.clear_below (Memory.write_below h (by omega) _) (by simp; omega)

/-- A list of bytes that was appended to the end was appended as R36 says. -/
theorem emitAll_done {bytes : List Byte} {s t : State} (hm : Memory.wf s.storage = true)
    (hc : s.cursor < s.capacity) (h : emitAll bytes s = .done t) : AppendsBytes s bytes t ∧ KeepsRest s t := by
  induction bytes generalizing s with
  | nil =>
    rw [emitAll_nil] at h
    cases h
    exact ⟨AppendsBytes.refl hc, KeepsRest.refl _⟩
  | cons b rest ih =>
    rw [emitAll_cons] at h
    rcases emit_cases b s with ⟨_, he⟩ | ⟨h1, he⟩ | ⟨_, _, he⟩ | ⟨h1, _, he⟩
    · simp [he] at h
    · rw [he, Progress.done_andThen] at h
      obtain ⟨ha, hk⟩ := ih (Memory.write_wf hm _ _) h1 h
      exact ⟨(storeByte_appends hm h1 b).trans (by omega) ha, KeepsRest.trans (t := storeByte s b) rfl (storeByte_keepsRest (by omega) b) hk⟩
    · simp [he] at h
    · rw [he, Progress.done_andThen] at h
      obtain ⟨ha, hk⟩ := ih (Memory.clear_wf (Memory.write_wf hm _ _) _)
        (show 0 < s.capacity by omega) h
      exact ⟨(flushedState_appends hm h1 b).trans (by omega) ha, KeepsRest.trans (t := flushedState (storeByte s b)) rfl (flushedState_keepsRest h1 b) hk⟩

/-- A list of bytes that was cut short by a `raise` was appended up to the byte that filled the buffer, and the flush
that this byte caused was partial (R86, R87). -/
theorem emitAll_raised {bytes : List Byte} {s t : State} (hm : Memory.wf s.storage = true)
    (hc : s.cursor < s.capacity) (h : emitAll bytes s = .raised t) :
    ∃ before b after u, bytes = before ++ b :: after ∧ emitAll before s = .done u ∧ u.cursor + 1 = u.capacity ∧
      sinkAnswer (storeByte u b) (heldBytes (storeByte u b)) < u.capacity ∧ t = failedFlush (storeByte u b) := by
  induction bytes generalizing s with
  | nil => simp [emitAll_nil] at h
  | cons b rest ih =>
    rw [emitAll_cons] at h
    have step : ∀ v, emit b s = .done v → Memory.wf v.storage = true → v.cursor < v.capacity →
        emitAll rest v = .raised t →
        ∃ before b' after u, b :: rest = before ++ b' :: after ∧ emitAll before s = .done u ∧
          u.cursor + 1 = u.capacity ∧ sinkAnswer (storeByte u b') (heldBytes (storeByte u b')) < u.capacity ∧
          t = failedFlush (storeByte u b') := fun v hv hw hvc hr => by
      obtain ⟨before, b', after, u, hsplit, hd, hu⟩ := ih hw hvc hr
      exact ⟨b :: before, b', after, u, by rw [hsplit]; rfl, by rw [emitAll_cons, hv]; exact hd, hu⟩
    rcases emit_cases b s with ⟨_, he⟩ | ⟨h1, he⟩ | ⟨h1, h2, he⟩ | ⟨h1, _, he⟩
    · simp [he] at h
    · rw [he, Progress.done_andThen] at h
      exact step _ he (Memory.write_wf hm _ _) h1 h
    · rw [he, Progress.raised_andThen] at h
      cases h
      exact ⟨[], b, rest, s, rfl, rfl, h1, h2, rfl⟩
    · rw [he, Progress.done_andThen] at h
      exact step _ he (Memory.clear_wf (Memory.write_wf hm _ _) _) (show 0 < s.capacity by omega) h

/-- Appending bytes never asks for a byte that does not exist, from a cursor inside the buffer (R33). -/
theorem emitAll_not_broken {bytes : List Byte} {s : State} (hc : s.cursor < s.capacity) (f : Fault) :
    emitAll bytes s ≠ .broken f := by
  induction bytes generalizing s with
  | nil => simp [emitAll_nil]
  | cons b rest ih =>
    rw [emitAll_cons]
    rcases emit_cases b s with ⟨h, _⟩ | ⟨h1, he⟩ | ⟨_, _, he⟩ | ⟨h1, _, he⟩
    · omega
    · rw [he]; exact ih h1
    · rw [he]; simp
    · rw [he]; exact ih (show 0 < s.capacity by omega)

/-- The answers ahead of a state that `n` transactions separate from `s`. -/
theorem answerAhead_of_appends {s t : State} {bytes : List Byte} (h : AppendsBytes s bytes t) (j : Nat)
    (request : List Byte) :
    answerAhead t j request = answerAhead s ((heldBytes s ++ bytes).length / s.capacity + j) request := by
  unfold answerAhead
  rw [h.2.2.2.2.1, h.1, List.getElem?_drop]
  cases s.sinkAnswers[(heldBytes s ++ bytes).length / s.capacity + j]? <;>
    simp [fullChunks, Nat.add_assoc]

theorem acceptsNext.after {s t : State} {bytes : List Byte} {n : Nat} (h : AppendsBytes s bytes t)
    (ha : acceptsNext s ((heldBytes s ++ bytes).length / s.capacity + n)) : acceptsNext t n := by
  intro j hj request hr
  rw [answerAhead_of_appends h]
  exact ha _ (by omega) request (by rw [← h.2.2.2.2.2.2.2.2.1]; exact hr)

theorem acceptsNext.mono {s : State} {m n : Nat} (h : m ≤ n) (ha : acceptsNext s n) : acceptsNext s m :=
  fun j hj => ha j (by omega)

/-- Where the sink accepts every transaction the bytes cause, they are appended to the end (R36). -/
theorem emitAll_accepted {bytes : List Byte} {s : State} (hm : Memory.wf s.storage = true)
    (hc : s.cursor < s.capacity) (ha : acceptsNext s ((heldBytes s ++ bytes).length / s.capacity)) :
    ∃ t, emitAll bytes s = .done t ∧ AppendsBytes s bytes t ∧ KeepsRest s t := by
  cases h : emitAll bytes s with
  | done t => exact ⟨t, rfl, emitAll_done hm hc h⟩
  | broken f => exact absurd h (emitAll_not_broken hc f)
  | raised t =>
    obtain ⟨before, b, after, u, rfl, hd, hu, hk, _⟩ := emitAll_raised hm hc h
    obtain ⟨hau, hku⟩ := emitAll_done hm hc hd
    have hwu := hku.2.2.1 hm
    have hcap : u.capacity = s.capacity := hau.2.2.2.2.2.2.2.2.1
    have hfull : acceptsNext s ((heldBytes s ++ before).length / s.capacity + 1) := by
      refine ha.mono ?_
      have hh : (heldBytes s ++ before).length % s.capacity = u.cursor := hau.2.1.symm
      have hdm := Nat.div_add_mod (heldBytes s ++ before).length s.capacity
      rw [Nat.le_div_iff_mul_le (by omega), Nat.add_mul, Nat.one_mul, Nat.mul_comm]
      simp only [List.length_append, List.length_cons] at hdm hh ⊢
      omega
    have hacc := hfull.after hau
    have hlen : (heldBytes (storeByte u b)).length = u.capacity := by simpa using hu
    have hone : acceptsNext (storeByte u b) (0 + 1) := hacc
    have := sinkAnswer_of_accepts hone (request := heldBytes (storeByte u b)) (by rw [hlen]; exact Nat.le_refl _)
    omega

/-- At most one transaction per byte, so a sink that accepts that many accepts them all. -/
theorem emitAll_accepted' {bytes : List Byte} {s : State} (hm : Memory.wf s.storage = true)
    (hc : s.cursor < s.capacity) (ha : acceptsNext s bytes.length) :
    ∃ t, emitAll bytes s = .done t ∧ AppendsBytes s bytes t ∧ KeepsRest s t := by
  refine emitAll_accepted hm hc (ha.mono ?_)
  rcases Nat.eq_zero_or_pos bytes.length with h0 | h0
  · rw [List.length_append, heldBytes_length, h0, Nat.add_zero, Nat.div_eq_of_lt hc]
  · rw [List.length_append, heldBytes_length, Nat.div_le_iff_le_mul_add_pred (by omega)]
    have : bytes.length ≤ s.capacity * bytes.length := Nat.le_mul_of_pos_left _ (by omega)
    nlinarith

end Sys2Proof.Machine
end

