-- ==== Sys2Proof/Laws/Commands.lean ====
section
/-! SUPPORT. The bodies of the commands in one form: an accumulator written before, a list of bytes appended, an
accumulator written after (R70, R74), with the bytes and the accumulators as the rules give them. -/

namespace Sys2Proof.Machine

/-! ### Each arm of `exec` as a command body -/

theorem exec_wbyte (b : Byte) (s : State) : exec (.wbyte b) s = runCommand (emit b) s := rfl

theorem exec_wword (w : Half) (s : State) :
    exec (.wword w) s = runCommand (fun s0 => (emit (highByte w) s0).andThen (emit (lowByte w))) s := rfl

theorem exec_wmark (code : Byte) (s : State) :
    exec (.wmark code) s = runCommand (fun s0 => (emit Config.markerByte s0).andThen (emit code)) s := rfl

theorem exec_wbits (len : BitVec 5) (data : Half) (s : State) :
    exec (.wbits len data) s =
      runCommand (if legalLength len then writeBits len.toNat (codeOperand len data)
        else illegalCommand (encode (.wbits len data))) s := rfl

theorem exec_align (s : State) : exec .align s = runCommand alignBits s := rfl

theorem exec_flush (s : State) : exec .flush s = runCommand flushBuffer s := rfl

/-- Append `bytes`, then write the accumulator: the form of every command body but FLUSH. -/
def emitThenSet (bytes : List Byte) (value : Half) (len : Nat) (s : State) : Progress :=
  (emitAll bytes s).andThen fun t => .done (setAcc t value len)

@[simp] theorem setAcc_same (s : State) : setAcc s s.accValue s.accLen = s := rfl

@[simp] theorem setAcc_setAcc (s : State) (v v' : Half) (n n' : Nat) :
    setAcc (setAcc s v n) v' n' = setAcc s v' n' := rfl

theorem highByte_eq (w : Half) : highByte w = BitVec.ofNat 8 (w.toNat / 256) := by
  simp [highByte, ← BitVec.toNat_inj, Nat.shiftRight_eq_div_pow]

theorem lowByte_eq (w : Half) : lowByte w = BitVec.ofNat 8 w.toNat := by
  simp [lowByte, ← BitVec.toNat_inj]

theorem codeOperand_eq (len : BitVec 5) (data : Half) : codeOperand len data = data.toNat % 2 ^ len.toNat := by
  simp [codeOperand, mask, Nat.and_two_pow_sub_one_eq_mod]

theorem legalLength_iff (len : BitVec 5) : legalLength len = true ↔ 1 ≤ len.toNat ∧ len.toNat ≤ 16 := by
  unfold legalLength Config.minLen Config.maxLen
  rw [Bool.and_eq_true, decide_eq_true_iff, decide_eq_true_iff]

/-- WBITS with fewer than 16 bits available merges and emits nothing (R70). -/
theorem writeBits_merge {len code : Nat} {s : State} (h : s.accLen + len < 16) :
    writeBits len code s =
      .done (setAcc s (BitVec.ofNat 16 (s.accValue.toNat ||| code <<< (16 - (s.accLen + len)))) (s.accLen + len)) := by
  have hc : ¬ 0 ≤ combinedLength s.accLen len := by
    simp only [combinedLength, Config.accWidth]
    omega
  have hn : (-combinedLength s.accLen len).toNat = 16 - (s.accLen + len) := by
    simp only [combinedLength, Config.accWidth]
    omega
  unfold writeBits
  rw [if_neg hc, mergedBits, hn]
  congr 2
  apply BitVec.eq_of_toNat_eq
  simp [trunc16]

/-- WBITS with 16 bits or more available sends the word's two bytes and keeps the rest (R70). -/
theorem writeBits_emit {len code : Nat} {s : State} (h : 16 ≤ s.accLen + len) (ha : s.accLen ≤ 15)
    (hlen : len ≤ 16) (hcode : code < 2 ^ len) :
    writeBits len code s =
      emitThenSet
        (stuffed [BitVec.ofNat 8 ((s.accValue.toNat ||| code >>> (s.accLen + len - 16)) / 256),
          BitVec.ofNat 8 (s.accValue.toNat ||| code >>> (s.accLen + len - 16))])
        (BitVec.ofNat 16 (code <<< (16 - (s.accLen + len - 16)))) (s.accLen + len - 16) s := by
  have hc : 0 ≤ combinedLength s.accLen len := by
    simp only [combinedLength, Config.accWidth]
    omega
  have hn : (combinedLength s.accLen len).toNat = s.accLen + len - 16 := by
    simp only [combinedLength, Config.accWidth]
    omega
  have hk : ((Config.accWidth : Int) - combinedLength s.accLen len).toNat = 16 - (s.accLen + len - 16) := by
    simp only [combinedLength, Config.accWidth]
    omega
  have hlt : code >>> (s.accLen + len - 16) < 2 ^ 16 := by
    rw [Nat.shiftRight_eq_div_pow]
    have : code < 2 ^ 16 := Nat.lt_of_lt_of_le hcode (Nat.pow_le_pow_right (by decide) hlen)
    exact Nat.lt_of_le_of_lt (Nat.div_le_self _ _) this
  have hw : (joinedWord s.accValue code (combinedLength s.accLen len)).toNat =
      s.accValue.toNat ||| code >>> (s.accLen + len - 16) := by
    rw [joinedWord, hn, BitVec.toNat_or, trunc16, BitVec.toNat_ofNat, Nat.mod_eq_of_lt hlt]
  unfold writeBits emitThenSet
  rw [if_pos hc]
  simp only [emitStuffed_pair, highByte_eq, lowByte_eq, hw]
  congr 1
  funext t
  rw [keptBits, hk, hn]
  rfl

/-- The byte ALIGN completes where fewer than 8 bits are pending, and the accumulator that holds it (R75). -/
def paddedAcc (s : State) : Half :=
  BitVec.ofNat 16 (s.accValue.toNat ||| (2 ^ (8 - s.accLen) - 1) <<< 8)

/-- ALIGN with fewer than 8 bits pending: the padded byte goes out from the accumulator `(8, B << 8)` (R75). -/
theorem alignBits_short {s : State} (h : s.accLen ≤ 7) :
    alignBits s =
      emitThenSet (stuffed [BitVec.ofNat 8 ((paddedAcc s).toNat / 256)]) 0 0 (setAcc s (paddedAcc s) 8) := by
  have hp : paddingLength s.accLen = 8 - s.accLen := by simp only [paddingLength]; omega
  have hsum : s.accLen + (8 - s.accLen) = 8 := by omega
  unfold alignBits
  rw [hp, writeBits_merge (by omega), hsum, Progress.done_andThen]
  unfold flushPendingByte emitThenSet
  rw [setAcc_accLen, if_pos rfl, emitStuffed_eq, highByte_eq]
  rfl

/-- ALIGN with 8 bits or more pending: two bytes go out through the WBITS body and nothing is left (R75). -/
theorem alignBits_long {s : State} (h : 8 ≤ s.accLen) (ha : s.accLen ≤ 15) :
    alignBits s =
      emitThenSet
        (stuffed [BitVec.ofNat 8 ((s.accValue.toNat ||| (2 ^ (16 - s.accLen) - 1)) / 256),
          BitVec.ofNat 8 (s.accValue.toNat ||| (2 ^ (16 - s.accLen) - 1))]) 0 0 s := by
  have hp : paddingLength s.accLen = 16 - s.accLen := by simp only [paddingLength]; omega
  have hsum : s.accLen + (16 - s.accLen) - 16 = 0 := by omega
  have hones : ones (16 - s.accLen) < 2 ^ (16 - s.accLen) := by
    have := Nat.two_pow_pos (16 - s.accLen)
    simp only [ones]; omega
  have hkept : BitVec.ofNat 16 (ones (16 - s.accLen) <<< (16 - 0)) = (0 : Half) := by
    apply BitVec.eq_of_toNat_eq
    rw [BitVec.toNat_ofNat, Nat.shiftLeft_eq]
    simp
  unfold alignBits
  rw [hp, writeBits_emit (by omega) ha (by omega) hones, hsum, hkept, Nat.shiftRight_zero]
  unfold emitThenSet
  rw [Progress.andThen_assoc]
  congr 1

/-! ### The same in bit strings (R71, R76) -/

/-- `emittedBytes` of a WBITS that reaches 16 bits (R70, R71). -/
theorem emittedBytes_wbits {len : BitVec 5} {data : Half} {s : State} (ha : accumulatorOk s)
    (h : 16 ≤ s.accLen + len.toNat) :
    emittedBytes (.wbits len data) s =
      stuffed [BitVec.ofNat 8 ((s.accValue.toNat ||| codeOperand len data >>> (s.accLen + len.toNat - 16)) / 256),
        BitVec.ofNat 8 (s.accValue.toNat ||| codeOperand len data >>> (s.accLen + len.toNat - 16))] := by
  have hl : (joinedBits len data s).length = s.accLen + len.toNat := by simp [joinedBits]
  have hcode : codeOperand len data < 2 ^ len.toNat := by
    rw [codeOperand_eq]; exact Nat.mod_lt _ (Nat.two_pow_pos _)
  have hj : joinedBits len data s = pendingBits s ++ bitstr (codeOperand len data) len.toNat := by
    rw [codeOperand_eq, bitstr_mod]; rfl
  rw [emittedBytes, if_pos (by omega), hj, joined_take ha.1 ha.2 hcode h, bitsToBytes_bitstr_16]

theorem emittedBytes_wbits_none {len : BitVec 5} {data : Half} {s : State} (h : s.accLen + len.toNat < 16) :
    emittedBytes (.wbits len data) s = [] := by
  have hl : (joinedBits len data s).length = s.accLen + len.toNat := by simp [joinedBits]
  rw [emittedBytes, if_neg (by omega)]

theorem pendingBits_paddedAcc {s : State} (ha : accumulatorOk s) (h : s.accLen ≤ 7) :
    pendingBits (setAcc s (paddedAcc s) 8) = paddedBits s := by
  have hones : 2 ^ (8 - s.accLen) - 1 < 2 ^ (8 - s.accLen) := by have := Nat.two_pow_pos (8 - s.accLen); omega
  have hsum : s.accLen + (8 - s.accLen) = 8 := by omega
  have := joined_merge (s := s) (t := setAcc s (paddedAcc s) 8) (len := 8 - s.accLen) hones ha.2 (by omega)
    (by simp; omega) (by rw [hsum]; rfl)
  rw [this, bitstr_ones, paddedBits, pendingBits_length, Nat.mod_eq_of_lt (by omega)]

/-- `emittedBytes` of an ALIGN with fewer than 8 bits pending (R75, R76). -/
theorem emittedBytes_align_short {s : State} (ha : accumulatorOk s) (h : s.accLen ≤ 7) :
    emittedBytes .align s = stuffed [BitVec.ofNat 8 ((paddedAcc s).toNat / 256)] := by
  rw [emittedBytes, ← pendingBits_paddedAcc ha h, pendingBits]
  simp only [setAcc_accLen, setAcc_accValue]
  rw [bitsToBytes_bitstr_8, Nat.shiftRight_eq_div_pow]

/-- `emittedBytes` of an ALIGN with 8 bits or more pending (R75, R76). -/
theorem emittedBytes_align_long {s : State} (ha : accumulatorOk s) (h : 8 ≤ s.accLen) :
    emittedBytes .align s =
      stuffed [BitVec.ofNat 8 ((s.accValue.toNat ||| (2 ^ (16 - s.accLen) - 1)) / 256),
        BitVec.ofNat 8 (s.accValue.toNat ||| (2 ^ (16 - s.accLen) - 1))] := by
  have hb := ha.1
  have hones : 2 ^ (16 - s.accLen) - 1 < 2 ^ (16 - s.accLen) := by have := Nat.two_pow_pos (16 - s.accLen); omega
  have hpad : 8 - s.accLen % 8 = 16 - s.accLen := by omega
  have hsum : s.accLen + (16 - s.accLen) - 16 = 0 := by omega
  have hj : paddedBits s = pendingBits s ++ bitstr (2 ^ (16 - s.accLen) - 1) (16 - s.accLen) := by
    rw [bitstr_ones, paddedBits, pendingBits_length, hpad]
  have ht := joined_take ha.1 ha.2 hones (by omega)
  rw [List.take_of_length_le (by simp; omega), hsum, Nat.shiftRight_zero] at ht
  rw [emittedBytes, hj, ht, bitsToBytes_bitstr_16]

/-! ### Every command in one form -/

/-- The accumulator a command has written when it starts to append: only ALIGN's merge comes before its bytes (R92). -/
def accBefore : Instr → State → Half × Nat
  | .align, s => if s.accLen ≤ 7 then (paddedAcc s, 8) else (s.accValue, s.accLen)
  | .wbyte _, s => (s.accValue, s.accLen)
  | .wword _, s => (s.accValue, s.accLen)
  | .wmark _, s => (s.accValue, s.accLen)
  | .wbits _ _, s => (s.accValue, s.accLen)
  | .flush, s => (s.accValue, s.accLen)

/-- The accumulator a command leaves when it completes (R66, R70, R78). -/
def accAfter : Instr → State → Half × Nat
  | .align, _ => (0, 0)
  | .wbits len data, s =>
    if s.accLen + len.toNat < 16 then
      (BitVec.ofNat 16 (s.accValue.toNat ||| codeOperand len data <<< (16 - (s.accLen + len.toNat))),
        s.accLen + len.toNat)
    else
      (BitVec.ofNat 16 (codeOperand len data <<< (16 - (s.accLen + len.toNat - 16))), s.accLen + len.toNat - 16)
  | .wbyte _, s => (s.accValue, s.accLen)
  | .wword _, s => (s.accValue, s.accLen)
  | .wmark _, s => (s.accValue, s.accLen)
  | .flush, s => (s.accValue, s.accLen)

theorem emitThenSet_same (bytes : List Byte) (s : State) (h : ∀ t, emitAll bytes s = .done t → KeepsRest s t) :
    emitThenSet bytes s.accValue s.accLen s = emitAll bytes s := by
  unfold emitThenSet
  cases he : emitAll bytes s with
  | raised t => rfl
  | broken f => rfl
  | done t =>
    obtain ⟨hv, hl, _⟩ := h t he
    rw [Progress.done_andThen, ← hv, ← hl, setAcc_same]

/-- Every command but FLUSH, while `err = 0`: `accBefore` is written, `emittedBytes` are appended, `accAfter` is
written. -/
theorem exec_form {i : Instr} {s : State} (hi : i.wf = true) (hf : i ≠ .flush) (he : s.err = false)
    (ha : accumulatorOk s) (hm : Memory.wf s.storage = true) (hc : s.cursor < s.capacity) :
    exec i s =
      (emitThenSet (emittedBytes i s) (accAfter i s).1 (accAfter i s).2
        (setAcc s (accBefore i s).1 (accBefore i s).2)).outcome := by
  have hsame : ∀ bytes, emitThenSet bytes s.accValue s.accLen s = emitAll bytes s := fun bytes =>
    emitThenSet_same bytes s fun t ht => (emitAll_done hm hc ht).2
  cases i with
  | wbyte b =>
    show _ = (emitThenSet [b] s.accValue s.accLen s).outcome
    rw [hsame, exec_wbyte, runCommand_live he]
    exact congrArg Progress.outcome (Progress.andThen_done (emit b s)).symm
  | wword w =>
    show _ = (emitThenSet [BitVec.ofNat 8 (w.toNat / 256), BitVec.ofNat 8 w.toNat] s.accValue s.accLen s).outcome
    rw [hsame, exec_wword, runCommand_live he, emitAll_cons, highByte_eq, lowByte_eq]
    congr 2
    funext t
    exact (Progress.andThen_done (emit _ t)).symm
  | wmark code =>
    show _ = (emitThenSet [0xFF, code] s.accValue s.accLen s).outcome
    rw [hsame, exec_wmark, runCommand_live he, emitAll_cons]
    congr 2
    funext t
    exact (Progress.andThen_done (emit code t)).symm
  | wbits len data =>
    have hl := (legalLength_iff len).mp hi
    have hcode : codeOperand len data < 2 ^ len.toNat := by
      rw [codeOperand_eq]; exact Nat.mod_lt _ (Nat.two_pow_pos _)
    rw [exec_wbits, if_pos (show legalLength len = true from hi), runCommand_live he]
    by_cases h : s.accLen + len.toNat < 16
    · rw [writeBits_merge h, emittedBytes_wbits_none h]
      simp only [accBefore, accAfter, if_pos h]
      rfl
    · rw [writeBits_emit (by omega) ha.1 hl.2 hcode, emittedBytes_wbits ha (by omega)]
      simp only [accBefore, accAfter, if_neg h]
      rfl
  | align =>
    rw [exec_align, runCommand_live he]
    by_cases h : s.accLen ≤ 7
    · rw [alignBits_short h, emittedBytes_align_short ha h]
      simp only [accBefore, accAfter, if_pos h]
    · rw [alignBits_long (by omega) ha.1, emittedBytes_align_long ha (by omega)]
      simp only [accBefore, accAfter, if_neg h]
      rfl
  | flush => exact absurd rfl hf

/-- The accumulator a completed command leaves is in form and holds the pending bits R71 and R76 give. -/
theorem accAfter_spec {i : Instr} {s t : State} (hi : i.wf = true) (ha : accumulatorOk s)
    (hv : t.accValue = (accAfter i s).1) (hl : t.accLen = (accAfter i s).2) :
    accumulatorOk t ∧ pendingBits t = pendingAfter i s := by
  have hkeep : ∀ (h1 : t.accValue = s.accValue) (h2 : t.accLen = s.accLen),
      accumulatorOk t ∧ pendingBits t = pendingBits s := fun h1 h2 => by
    refine ⟨⟨by rw [h2]; exact ha.1, by rw [h1, h2]; exact ha.2⟩, ?_⟩
    rw [pendingBits, h1, h2]
    rfl
  cases i with
  | wbyte b => exact hkeep hv hl
  | wword w => exact hkeep hv hl
  | wmark code => exact hkeep hv hl
  | flush => exact hkeep hv hl
  | align =>
    simp only [accAfter] at hv hl
    refine ⟨⟨by omega, by rw [hv, hl]; simp⟩, ?_⟩
    apply List.eq_nil_of_length_eq_zero
    rw [pendingBits_length, hl]
  | wbits len data =>
    have hlen := (legalLength_iff len).mp hi
    have hcode : codeOperand len data < 2 ^ len.toNat := by
      rw [codeOperand_eq]; exact Nat.mod_lt _ (Nat.two_pow_pos _)
    have hj : joinedBits len data s = pendingBits s ++ bitstr (codeOperand len data) len.toNat := by
      rw [codeOperand_eq, bitstr_mod]; rfl
    have hjl : (joinedBits len data s).length = s.accLen + len.toNat := by simp [joinedBits]
    by_cases h : s.accLen + len.toNat < 16
    · simp only [accAfter, if_pos h] at hv hl
      refine ⟨⟨by omega, ?_⟩, ?_⟩
      · rw [hv, hl]; exact merged_mod ha.2 h
      · rw [joined_merge hcode ha.2 h hl hv, pendingAfter, if_neg (by omega), hj]
    · simp only [accAfter, if_neg h] at hv hl
      have hb := ha.1
      refine ⟨⟨by omega, ?_⟩, ?_⟩
      · rw [hv, hl]; exact kept_mod _ _ (by omega)
      · rw [joined_drop ha.1 hlen.2 (by omega) hl hv, pendingAfter, if_pos (by omega), hj]

/-- The accumulator written before the bytes is in form as well (R92). -/
theorem accBefore_ok {i : Instr} {s t : State} (ha : accumulatorOk s)
    (hv : t.accValue = (accBefore i s).1) (hl : t.accLen = (accBefore i s).2) : accumulatorOk t := by
  have hkeep : ∀ (h1 : t.accValue = s.accValue) (h2 : t.accLen = s.accLen), accumulatorOk t := fun h1 h2 =>
    ⟨by rw [h2]; exact ha.1, by rw [h1, h2]; exact ha.2⟩
  cases i with
  | wbyte b => exact hkeep hv hl
  | wword w => exact hkeep hv hl
  | wmark code => exact hkeep hv hl
  | wbits len data => exact hkeep hv hl
  | flush => exact hkeep hv hl
  | align =>
    by_cases h : s.accLen ≤ 7
    · simp only [accBefore, if_pos h] at hv hl
      refine ⟨by omega, ?_⟩
      have hm := merged_mod (code := 2 ^ (8 - s.accLen) - 1) (len := 8 - s.accLen) ha.2 (by omega)
      have hsum : s.accLen + (8 - s.accLen) = 8 := by omega
      rw [hsum] at hm
      rw [hv, hl]
      exact hm
    · simp only [accBefore, if_neg h] at hv hl
      exact hkeep hv hl

/-- What a command but FLUSH can answer, from a state in form with `err = 0`: it completed, or the byte `b` filled
the buffer and its flush was partial. -/
theorem exec_cases {i : Instr} {s t : State} (hi : i.wf = true) (hf : i ≠ .flush) (he : s.err = false)
    (ha : accumulatorOk s) (hm : Memory.wf s.storage = true) (hc : s.cursor < s.capacity)
    (h : exec i s = .next t) :
    (∃ u, emitAll (emittedBytes i s) (setAcc s (accBefore i s).1 (accBefore i s).2) = .done u ∧
      t = setAcc u (accAfter i s).1 (accAfter i s).2) ∨
    (∃ before b after u, emittedBytes i s = before ++ b :: after ∧
      emitAll before (setAcc s (accBefore i s).1 (accBefore i s).2) = .done u ∧ u.cursor + 1 = u.capacity ∧
      sinkAnswer (storeByte u b) (heldBytes (storeByte u b)) < u.capacity ∧ t = failedFlush (storeByte u b)) := by
  rw [exec_form hi hf he ha hm hc] at h
  unfold emitThenSet at h
  cases hE : emitAll (emittedBytes i s) (setAcc s (accBefore i s).1 (accBefore i s).2) with
  | done u =>
    rw [hE] at h
    simp only [Progress.done_andThen, Progress.done_outcome, Host.Outcome.next.injEq] at h
    exact .inl ⟨u, rfl, h.symm⟩
  | raised u =>
    rw [hE] at h
    simp only [Progress.raised_andThen, Progress.raised_outcome, Host.Outcome.next.injEq] at h
    subst h
    exact .inr (emitAll_raised hm hc hE)
  | broken f => exact absurd hE (emitAll_not_broken (s := setAcc s (accBefore i s).1 (accBefore i s).2) hc f)

/-- A WBITS whose LEN is out of range raises ILLEGAL_COMMAND with the word that `encode` gives (R51). -/
theorem exec_illegal {i : Instr} {s : State} (hi : i.wf = false) (he : s.err = false) :
    exec i s = .next (raiseError .illegalCommand (encode i) s) := by
  cases i with
  | wbits len data =>
    have hl : ¬ legalLength len = true := fun h => Bool.noConfusion (h.symm.trans hi)
    rw [exec_wbits, if_neg hl, runCommand_live he]
    rfl
  | wbyte b => cases hi
  | wword w => cases hi
  | wmark code => cases hi
  | align => cases hi
  | flush => cases hi

/-- While `err = 1` every command is accepted and discarded (R90). -/
theorem exec_discarded {s : State} (i : Instr) (he : s.err = true) : exec i s = .next s := by
  cases i with
  | wbyte b => rw [exec_wbyte, runCommand_discarded he]
  | wword w => rw [exec_wword, runCommand_discarded he]
  | wmark code => rw [exec_wmark, runCommand_discarded he]
  | wbits len data => rw [exec_wbits, runCommand_discarded he]
  | align => rw [exec_align, runCommand_discarded he]
  | flush => rw [exec_flush, runCommand_discarded he]

end Sys2Proof.Machine
end

