-- ==== Sys2Proof/Laws/PerInstr.lean ====
section
/-! SUPPORT. The per-instruction family Layout: the word of every command carries the command's OP in bits 31:28 and
zeros in RSV (30_encoding.md R48–R50, R59). -/

namespace Sys2Proof.Laws.Layout

/-- The word `encode` writes has the command's OP and a zero RSV. -/
def Statement (i : Instr) : Prop := opField (encode i) = opcodeOf i ∧ rsvField (encode i) = 0

theorem packWord_layout (op : BitVec 4) (len : BitVec 5) (data : Half) :
    opField (packWord op len data) = op ∧ rsvField (packWord op len data) = 0 := by
  constructor <;> apply BitVec.eq_of_getLsbD_eq <;> intro i hi
  · have hl : len.getLsbD (28 + i - 16) = false := BitVec.getLsbD_of_ge _ _ (by omega)
    have hd : BitVec.getLsbD data (28 + i) = false := BitVec.getLsbD_of_ge _ _ (by omega)
    simp [opField, packWord, hi, hl, hd, show 28 + i < 32 by omega]
  · have hl : len.getLsbD (21 + i - 16) = false := BitVec.getLsbD_of_ge _ _ (by omega)
    have hd : BitVec.getLsbD data (21 + i) = false := BitVec.getLsbD_of_ge _ _ (by omega)
    have ho : ¬ 28 ≤ 21 + i := by omega
    simp [rsvField, packWord, hl, hd, ho]

theorem wbyte (b : Byte) : Statement (.wbyte b) := packWord_layout _ _ _

theorem wword (w : Half) : Statement (.wword w) := packWord_layout _ _ _

theorem wmark (code : Byte) : Statement (.wmark code) := packWord_layout _ _ _

theorem wbits (len : BitVec 5) (data : Half) : Statement (.wbits len data) := packWord_layout _ _ _

theorem align : Statement .align := packWord_layout _ _ _

theorem flush : Statement .flush := packWord_layout _ _ _

end Sys2Proof.Laws.Layout
end

