-- ==== Sys2Proof/Laws/Step.lean ====
section
/-! SUPPORT. Everything `Execute` and a step can do, said once (R55, R114). -/

namespace Sys2Proof.Machine

/-- What `Execute(w)` can answer (R55, R90, R88). -/
theorem execute_next {w : Word} {s t : State} (h : execute w s = .next t) :
    (s.err = true ∧ t = s) ∨
    (s.err = false ∧ ∃ i, decode w = .ok i ∧ exec i s = .next t) ∨
    (s.err = false ∧ ∃ e, decode w = .error e ∧ t = raiseError .illegalCommand w s) := by
  unfold execute executeWord at h
  cases he : s.err
  · rw [he, if_neg (by decide)] at h
    cases hd : decode w with
    | ok i => rw [hd] at h; exact .inr (.inl ⟨rfl, i, rfl, h⟩)
    | error e =>
      rw [hd] at h
      simp only [runCommand_live he, illegalCommand, Progress.raised_outcome, Host.Outcome.next.injEq] at h
      exact .inr (.inr ⟨rfl, e, rfl, h.symm⟩)
  · rw [he, if_pos rfl] at h
    exact .inl ⟨rfl, by simpa [eq_comm] using h⟩

theorem execute_discarded {w : Word} {s : State} (he : s.err = true) : execute w s = .next s := by
  unfold execute executeWord
  rw [he, if_pos rfl]

theorem execute_ok {w : Word} {i : Instr} (s : State) (hd : decode w = .ok i) : execute w s = exec i s := by
  cases he : s.err
  · unfold execute executeWord
    rw [he, if_neg (by decide), hd]
  · rw [execute_discarded he, exec_discarded i he]

theorem execute_error {w : Word} {e : DecodeError} {s : State} (he : s.err = false) (hd : decode w = .error e) :
    execute w s = .next (raiseError .illegalCommand w s) := by
  unfold execute executeWord
  rw [he, if_neg (by decide), hd]
  exact runCommand_live he

/-- A command on the port runs, from a block that has been reset (R103). -/
theorem step_of_command {w : Word} {rest : List HostEvent} {s : State} (hq : s.hostQueue = .command w :: rest)
    (hb : s.booted = true) : step s = execute w (dropEvent s) := by
  unfold step portStep
  rw [hq]
  show (if (dropEvent s).booted = true then _ else _) = _
  rw [dropEvent_booted, hb, if_pos rfl]
  rfl

/-- What a step can answer as a next state (R99, R100, R55). -/
theorem step_next {s t : State} (h : step s = .next t) :
    (s.hostQueue = [] ∧ t = s) ∨
    (∃ rest, s.hostQueue = .reset :: rest ∧ t = resetEvent (dropEvent s)) ∨
    (∃ w rest, s.hostQueue = .command w :: rest ∧ s.booted = true ∧ execute w (dropEvent s) = .next t) := by
  cases hq : s.hostQueue with
  | nil =>
    unfold step portStep at h
    rw [hq] at h
    simp only [Host.Outcome.next.injEq] at h
    exact .inl ⟨rfl, h.symm⟩
  | cons e rest =>
    cases e with
    | command w =>
      cases hb : s.booted
      · unfold step portStep at h
        rw [hq] at h
        simp [handleEvent, hb] at h
      · rw [step_of_command hq hb] at h
        exact .inr (.inr ⟨w, rest, rfl, rfl, h⟩)
    | reset =>
      unfold step portStep at h
      rw [hq] at h
      simp only [handleEvent, Host.Outcome.next.injEq] at h
      exact .inr (.inl ⟨rest, rfl, h.symm⟩)
    | resetInside w =>
      unfold step portStep at h
      rw [hq] at h
      simp [handleEvent] at h
    | commandInside w =>
      unfold step portStep at h
      rw [hq] at h
      simp [handleEvent] at h

/-- A word put on the port is what the very next step executes. -/
theorem step_withFetchWord (s : State) (w : Word) (hb : s.booted = true) :
    step (s.withFetchWord 32 w.toNat) = execute w s := by
  have hw : BitVec.ofNat 32 (w.toNat % 2 ^ 32) = w := by
    rw [Nat.mod_eq_of_lt w.isLt, BitVec.ofNat_toNat, BitVec.setWidth_eq]
  unfold State.withFetchWord
  rw [hw, step_of_command (presentCommand_hostQueue s w) hb]
  rfl

end Sys2Proof.Machine
end

