-- ==== Sys2Proof/Laws/Stream.lean ====
section
/-! SUPPORT. How the session's transactions, the appended bytes and the sink stream grow when bytes are appended and
when a flush is partial (R36, R38, R45, R87). -/

namespace Sys2Proof.Machine

/-- The full groups of a byte sequence are its first part, in order (R36). -/
theorem fullChunks_flatten (c : Nat) (bytes : List Byte) :
    (fullChunks c bytes).flatten = bytes.take (c * (bytes.length / c)) := by
  have h : ∀ n, ((List.range n).map fun i => (bytes.drop (c * i)).take c).flatten = bytes.take (c * n) := by
    intro n
    induction n with
    | zero => simp
    | succ n ih => simp [List.range_succ, ih, Nat.mul_succ, List.take_add]
  exact h _

/-- Every full group has `C` bytes (R36). -/
theorem fullChunks_mem_length {c : Nat} {bytes chunk : List Byte} (h : chunk ∈ fullChunks c bytes) :
    chunk.length = c := by
  obtain ⟨i, hi, rfl⟩ := List.mem_map.mp h
  have hi := List.mem_range.mp hi
  have h1 : c * (i + 1) ≤ c * (bytes.length / c) := Nat.mul_le_mul_left _ hi
  have h2 : c * (bytes.length / c) ≤ bytes.length := Nat.mul_div_le _ _
  rw [Nat.mul_succ] at h1
  simp
  omega

/-- The transactions that appending bytes adds. -/
def newTransactions (s : State) (bytes : List Byte) : List Transaction :=
  (fullChunks s.capacity (heldBytes s ++ bytes)).map fun c => ⟨c, s.capacity⟩

theorem newTransactions_mem {s : State} {bytes : List Byte} {x : Transaction}
    (h : x ∈ newTransactions s bytes) : x.accepted = s.capacity ∧ x.request.length = s.capacity := by
  obtain ⟨c, hm, rfl⟩ := List.mem_map.mp h
  exact ⟨rfl, fullChunks_mem_length hm⟩

theorem newTransactions_complete {s : State} {bytes : List Byte} {x : Transaction}
    (h : x ∈ newTransactions s bytes) : x.complete = true := by
  obtain ⟨h1, h2⟩ := newTransactions_mem h
  simp [Transaction.complete, h1, h2]

theorem newTransactions_flatMap (s : State) (bytes : List Byte) :
    (newTransactions s bytes).flatMap Transaction.request =
      (heldBytes s ++ bytes).take (s.capacity * ((heldBytes s ++ bytes).length / s.capacity)) := by
  rw [← fullChunks_flatten, newTransactions, List.flatMap_map, List.flatMap_id']

/-- The session grows by the new transactions. -/
theorem session_of_log {s t : State} {new : List Transaction} (hs : s.sessionStart ≤ s.sinkLog.length)
    (hl : t.sinkLog = s.sinkLog ++ new) (hst : t.sessionStart = s.sessionStart) :
    session t = session s ++ new := by
  rw [session, session, hl, hst, List.drop_append_of_le_length hs]

/-- The bytes appended so far grow by exactly the bytes appended (R45). -/
theorem appendedBytes_of_appends {s t : State} {bytes : List Byte}
    (hs : s.sessionStart ≤ s.sinkLog.length) (h : AppendsBytes s bytes t) :
    appendedBytes t = appendedBytes s ++ bytes := by
  have hsess : session t = session s ++ newTransactions s bytes :=
    session_of_log hs h.1 h.2.2.2.2.2.2.2.2.2.2.2
  have hall : (newTransactions s bytes).filter Transaction.complete = newTransactions s bytes :=
    List.filter_eq_self.mpr fun x hx => newTransactions_complete hx
  unfold appendedBytes
  rw [hsess, List.filter_append, List.flatMap_append, hall, newTransactions_flatMap, h.2.2.1, List.append_assoc,
    List.take_append_drop, List.append_assoc]

/-- A partial flush keeps the bytes held, so what was appended is unchanged by it (R87). -/
theorem appendedBytes_failedFlush {s : State} (hs : s.sessionStart ≤ s.sinkLog.length)
    (hk : sinkAnswer s (heldBytes s) < s.cursor) : appendedBytes (failedFlush s) = appendedBytes s := by
  have hsess : session (failedFlush s) = session s ++ [⟨heldBytes s, sinkAnswer s (heldBytes s)⟩] :=
    session_of_log hs rfl rfl
  have hf : Transaction.complete ⟨heldBytes s, sinkAnswer s (heldBytes s)⟩ = false := by
    simp [Transaction.complete]
    omega
  unfold appendedBytes
  rw [hsess, List.filter_append, List.flatMap_append, List.filter_cons, hf]
  simp [failedFlush, heldBytes]

theorem appendedBytes_storeByte {s : State} (hm : Memory.wf s.storage = true) (b : Byte) :
    appendedBytes (storeByte s b) = appendedBytes s ++ [b] := by
  unfold appendedBytes
  rw [heldBytes_storeByte hm, ← List.append_assoc]
  rfl

/-- The accumulator plays no part in what was appended. -/
@[simp] theorem appendedBytes_setAcc (s : State) (v : Half) (n : Nat) :
    appendedBytes (setAcc s v n) = appendedBytes s := rfl

@[simp] theorem heldBytes_setAcc (s : State) (v : Half) (n : Nat) : heldBytes (setAcc s v n) = heldBytes s := rfl

@[simp] theorem sinkStream_setAcc (s : State) (v : Half) (n : Nat) : sinkStream (setAcc s v n) = sinkStream s := rfl

/-- While every transaction of the session is complete, the stream and the held bytes are all that was appended. -/
theorem appendedBytes_eq_stream {s : State} (h : ∀ x ∈ session s, x.complete = true) :
    appendedBytes s = sinkStream s ++ heldBytes s := by
  have hall : (session s).filter Transaction.complete = session s := List.filter_eq_self.mpr h
  unfold appendedBytes sinkStream
  rw [hall]
  congr 1
  apply List.flatMap_congr
  intro x hx
  have := h x hx
  simp only [Transaction.complete, decide_eq_true_eq] at this
  rw [Transaction.acceptedBytes, this, List.take_length]

theorem AppendsBytes.setAcc_left {s t : State} {bytes : List Byte} {v : Half} {n : Nat}
    (h : AppendsBytes (setAcc s v n) bytes t) : AppendsBytes s bytes t := h

theorem AppendsBytes.setAcc_right {s t : State} {bytes : List Byte} (v : Half) (n : Nat)
    (h : AppendsBytes s bytes t) : AppendsBytes s bytes (setAcc t v n) := h

end Sys2Proof.Machine
end

