-- ==== Sys2Proof/Laws/Results.lean ====
section
/-! SUPPORT. Everything a command can answer from a state that meets the invariant with `err = 0`: the one lemma that
later proofs take apart instead of unfolding `exec`. -/

namespace Sys2Proof.Machine

/-- `t` is `s` after a command that appends completed (R36, R66, R70, R78). -/
structure Completed (i : Instr) (s t : State) : Prop where
  appends : AppendsBytes s (emittedBytes i s) t
  accValue : t.accValue = (accAfter i s).1
  accLen : t.accLen = (accAfter i s).2
  wf : Memory.wf t.storage = true
  below : Memory.below t.storage s.capacity

/-- `t` is `s` after a partial flush ended a command that appends: `u` is the state before the byte `b` that filled the
buffer (R86, R87, R92). -/
structure CutShort (i : Instr) (s t : State) (before : List Byte) (b : Byte) (after : List Byte) (u : State) :
    Prop where
  split : emittedBytes i s = before ++ b :: after
  appends : AppendsBytes s before u
  accValue : u.accValue = (accBefore i s).1
  accLen : u.accLen = (accBefore i s).2
  wf : Memory.wf u.storage = true
  below : Memory.below u.storage s.capacity
  full : u.cursor + 1 = u.capacity
  partialAnswer : sinkAnswer (storeByte u b) (heldBytes (storeByte u b)) < u.capacity
  result : t = failedFlush (storeByte u b)

/-- A command cut short fails while appending its bytes, with the accumulator it had by then. -/
theorem CutShort.fails {i : Instr} {s t u : State} {before after : List Byte} {b : Byte}
    (h : CutShort i s t before b after u) :
    FailsAppending (setAcc s (accBefore i s).1 (accBefore i s).2) (emittedBytes i s) t := by
  have hh := heldBytes_storeByte h.wf b
  have hsa : sinkAnswer (storeByte u b) (heldBytes (storeByte u b)) =
      min (answerAhead u 0 (heldBytes u ++ [b])) u.capacity := by
    rw [sinkAnswer, offeredAnswer_eq, hh, List.length_append, heldBytes_length, List.length_singleton, h.full]
    rfl
  refine ⟨before, b, after, u, _, h.split, h.appends, h.accValue, h.accLen, h.full, rfl, hsa ▸ h.partialAnswer, ?_⟩
  rw [h.result, failedFlush, hsa, hh]
  simp [raiseError, recordTransaction, storeByte, afterPartialFlush, causeCode, h.full]

/-- The parts of the invariant a live command needs. -/
theorem State.Inv.live {s : State} (h : s.Inv) (he : s.err = false) :
    accumulatorOk s ∧ Memory.wf s.storage = true ∧ Memory.below s.storage s.capacity ∧ s.cursor < s.capacity ∧
      s.sessionStart ≤ s.sinkLog.length :=
  ⟨h.2.1, h.2.2.1.2.2.1, h.2.2.1.2.2.2, h.2.2.1.2.1 he, h.2.2.2.2.1⟩

/-- What a command that appends can answer. -/
theorem exec_result {i : Instr} {s t : State} (hs : s.Inv) (he : s.err = false) (hi : i.wf = true)
    (hf : i ≠ .flush) (h : exec i s = .next t) :
    Completed i s t ∨ ∃ before b after u, CutShort i s t before b after u := by
  obtain ⟨ha, hm, hb, hc, _⟩ := hs.live he
  rcases exec_cases hi hf he ha hm hc h with ⟨u, hu, rfl⟩ | ⟨before, b, after, u, hsplit, hu, hfull, hk, rfl⟩
  · obtain ⟨hap, hk⟩ := emitAll_done (s := setAcc s (accBefore i s).1 (accBefore i s).2) hm hc hu
    exact .inl ⟨hap, rfl, rfl, hk.2.2.1 hm, hk.2.2.2 hb⟩
  · obtain ⟨hap, hk'⟩ := emitAll_done (s := setAcc s (accBefore i s).1 (accBefore i s).2) hm hc hu
    exact .inr ⟨before, b, after, u, hsplit, hap, hk'.1, hk'.2.1, hk'.2.2.1 hm, hk'.2.2.2 hb, hfull, hk, rfl⟩

/-- A sink that accepts the transactions of a command's bytes lets the command complete. -/
theorem exec_completes {i : Instr} {s : State} (hs : s.Inv) (he : s.err = false) (hi : i.wf = true)
    (hf : i ≠ .flush) (ha : acceptsNext s (transactionsFor s (emittedBytes i s))) :
    ∃ t, exec i s = .next t ∧ Completed i s t := by
  obtain ⟨hacc, hm, hb, hc, _⟩ := hs.live he
  obtain ⟨u, hu, hap, hk⟩ :=
    emitAll_accepted (s := setAcc s (accBefore i s).1 (accBefore i s).2) (bytes := emittedBytes i s) hm hc ha
  refine ⟨setAcc u (accAfter i s).1 (accAfter i s).2, ?_, hap, rfl, rfl, hk.2.2.1 hm, hk.2.2.2 hb⟩
  rw [exec_form hi hf he hacc hm hc]
  unfold emitThenSet
  rw [hu]
  rfl

/-- What FLUSH can answer (R64). -/
theorem exec_flush_result {s t : State} (hs : s.Inv) (he : s.err = false) (h : exec .flush s = .next t) :
    (s.cursor = 0 ∧ t = s) ∨
    (s.cursor ≠ 0 ∧ sinkAnswer s (heldBytes s) < s.cursor ∧ t = failedFlush s) ∨
    (s.cursor ≠ 0 ∧ sinkAnswer s (heldBytes s) = s.cursor ∧ t = flushedState s) := by
  have hc := hs.2.2.1.1
  rw [exec_flush, runCommand_live he] at h
  rcases flushBuffer_cases s with ⟨h0, hf⟩ | ⟨_, hgt, _⟩ | ⟨h0, _, hk, hf⟩ | ⟨h0, _, hk, hf⟩
  · rw [hf, Progress.done_outcome, Host.Outcome.next.injEq] at h
    exact .inl ⟨h0, h.symm⟩
  · omega
  · rw [hf, Progress.raised_outcome, Host.Outcome.next.injEq] at h
    exact .inr (.inl ⟨h0, hk, h.symm⟩)
  · rw [hf, Progress.done_outcome, Host.Outcome.next.injEq] at h
    exact .inr (.inr ⟨h0, hk, h.symm⟩)

end Sys2Proof.Machine
end

