-- ==== Sys2Proof/Tests/Slice0.lean ====
section
/-! SUPPORT. The model's own tests: the vectors of 95_test_vectors.md (named in each comment), the well-formedness
check's refusals, and for every obligation with hypotheses a witness `test_witness_<obligation>` that meets them. -/

namespace Sys2Proof.Tests

open Sys2Proof Sys2Proof.Machine

/-! ### Helpers -/

/-- Bytes in a buffer from offset 0. -/
def stored (held : List Byte) : Memory := held.zipIdx.foldl (fun m p => Memory.write m p.2 p.1) []

/-- A block of capacity `c` with these held bytes, accumulator and sink answers. -/
def bench (c : Nat) (held : List Byte) (len : Nat) (value : Half) (answers : List Nat) : State :=
  { State.reset with
    capacity := c, storage := stored held, cursor := held.length, accLen := len, accValue := value
    sinkAnswers := answers }

/-- The block with these events next. -/
def queued (s : State) (events : List HostEvent) : State := { s with hostQueue := events }

/-- The next state, if there is one. -/
def after (o : Host.Outcome State Fault Refusal) : Option State :=
  match o with
  | .next t => some t
  | .fault _ => none
  | .refused _ => none

/-- Held bytes, accumulator and transactions after a command. -/
def seen (o : Host.Outcome State Fault Refusal) : Option (List Byte × Nat × Half × List Transaction) :=
  (after o).map fun t => (heldBytes t, t.accLen, t.accValue, t.sinkLog)

/-- The error state and LEVEL after a command. -/
def errors (o : Host.Outcome State Fault Refusal) : Option (Bool × BitVec 3 × Word × Word) :=
  (after o).map fun t => (t.err, t.errCode, errInfoWord t, levelWord t)

/-- A sink whose listed answers are at least `C` accepts what is offered. -/
theorem accepts_of_script {s : State} {n : Nat}
    (h : ∀ j, j < n → ((s.sinkAnswers[j]?).any fun k => decide (s.capacity ≤ k)) = true) : acceptsNext s n := by
  intro j hj request hr
  have := h j hj
  unfold answerAhead
  cases hk : s.sinkAnswers[j]? with
  | none => simp [hk] at this
  | some k =>
    simp [hk] at this
    exact Nat.le_trans hr this

/-! ### Well-formedness and decoding -/

/-- LEN 0 and LEN 17 are ill-formed (R51); 1 and 16 are well-formed. -/
theorem test_wellformed_lengths :
    (Instr.wbits 0 1).wf = false ∧ (Instr.wbits 17 0).wf = false ∧ (Instr.wbits 31 0).wf = false ∧
    (Instr.wbits 1 0).wf = true ∧ (Instr.wbits 16 0).wf = true := by decide

/-- E4, E5, E6: the decoder refuses the words of those terms. -/
theorem test_decode_refuses_lengths :
    decode 0x30000001 = .error .lengthOutOfRange ∧ decode 0x30110000 = .error .lengthOutOfRange ∧
    decode 0x3000FFFF = .error .lengthOutOfRange := by decide

/-- E1, E2, E3: RSV and the reserved OPs. -/
theorem test_decode_refuses_reserved :
    decode 0x00200000 = .error .reservedBits ∧ decode 0x60000000 = .error .reservedOp ∧
    decode 0xF0000000 = .error .reservedOp := by decide

/-- `oooo rrrrrrr lllll dddddddddddddddd` written out bit by bit for each row (R48, R49; E8, B6, P1, W1, E10, E9). -/
theorem test_decode_words :
    decode 0b00000000000000001010101100010010#32 = .ok (.wbyte 0x12) ∧
    decode 0b00010000000000001010101111001101#32 = .ok (.wword 0xABCD) ∧
    decode 0b00100000000000000000000011011000#32 = .ok (.wmark 0xD8) ∧
    decode 0b00110000000000110000000000000101#32 = .ok (.wbits 3 0b101) ∧
    decode 0b01000000000000001111111111111111#32 = .ok .align ∧
    decode 0b01010000000111110001001000110100#32 = .ok .flush := by decide

/-- Bit `n` of each field lands where R48 puts it: LEN's top bit is bit 20, DATA's top bit is bit 15. -/
theorem test_decode_field_edges :
    decode (0x30000000 ||| 1 <<< 20) = .ok (.wbits 16 0) ∧
    decode (0x30010000 ||| 1 <<< 15) = .ok (.wbits 1 0x8000) := by decide

/-- R59: `WBITS 3, 0b101` encodes as `0x3003_0005`. -/
theorem test_encode_wbits : encode (.wbits 3 0b101) = 0x30030005 := by decide

/-- The host's numbering of a command's bits is the word itself, and a number beyond the row's bits is none. -/
theorem test_decodeTableWord :
    decodeTableWord 32 0x200000D8 = some (.wmark 0xD8) ∧ decodeTableWord 32 0x60000000 = none ∧
    decodeTableWord 32 (2 ^ 32) = none := by decide

/-! ### The commands -/

/-- B1: `0xFF` goes out raw. -/
theorem test_wbyte_ff_raw : seen (exec (.wbyte 0xFF) (bench 4 [] 0 0 [])) = some ([0xFF], 0, 0, []) := by decide

/-- B4: pending bits stay where they are. -/
theorem test_wbyte_keeps_acc :
    seen (exec (.wbyte 0x55) (bench 4 [] 5 0xA800 [])) = some ([0x55], 5, 0xA800, []) := by decide

/-- B6: the high byte fills the buffer, the low byte is held. -/
theorem test_wword_split :
    seen (exec (.wword 0xABCD) (bench 2 [0x09] 0 0 [2])) = some ([0xCD], 0, 0, [⟨[0x09, 0xAB], 2⟩]) := by decide

/-- B10: a sink that takes nothing ends the command before the low byte. -/
theorem test_wword_partial :
    seen (exec (.wword 0xABCD) (bench 2 [0x09] 0 0 [0])) = some ([0x09, 0xAB], 0, 0, [⟨[0x09, 0xAB], 0⟩]) ∧
    errors (exec (.wword 0xABCD) (bench 2 [0x09] 0 0 [0])) = some (true, 1, 0, 2) := by decide

/-- B3: `[FF, 00]`. -/
theorem test_wmark_zero : seen (exec (.wmark 0x00) (bench 4 [] 0 0 [])) = some ([0xFF, 0x00], 0, 0, []) := by decide

/-- B7: two transactions at `C = 1`. -/
theorem test_wmark_capacity_one :
    seen (exec (.wmark 0xD8) (bench 1 [] 0 0 [1, 1])) = some ([], 0, 0, [⟨[0xFF], 1⟩, ⟨[0xD8], 1⟩]) := by decide

/-- W4: one bit of the code enters the word, 15 stay pending. -/
theorem test_wbits_fifteen_pending :
    seen (exec (.wbits 16 0x1234) (bench 8 [] 15 0xFFFE [])) = some ([0xFF, 0x00, 0xFE], 15, 0x2468, []) := by decide

/-- W5: DATA above LEN does not matter, and the code is merged below the pending bits. -/
theorem test_wbits_merge :
    seen (exec (.wbits 4 0xFFF5) (bench 8 [] 0 0 [])) = some ([], 4, 0x5000, []) := by decide

/-- A4: exactly 8 pending bits, then a whole byte of padding. -/
theorem test_align_eight : seen (exec .align (bench 8 [] 8 0x4000 [])) = some ([0x40, 0xFF, 0x00], 0, 0, []) := by
  decide

/-- A11: an error in the last byte leaves `(8, 0xFF00)`. -/
theorem test_align_error :
    seen (exec .align (bench 1 [] 3 0xE000 [0])) = some ([0xFF], 8, 0xFF00, [⟨[0xFF], 0⟩]) ∧
    errors (exec .align (bench 1 [] 3 0xE000 [0])) = some (true, 1, 0, 1) := by decide

/-- R64's example: the held byte is delivered and its offset cleared. -/
theorem test_flush_delivers :
    seen (exec .flush (bench 4 [0x40] 0 0 [1])) = some ([], 0, 0, [⟨[0x40], 1⟩]) ∧
    ((after (exec .flush (bench 4 [0x40] 0 0 [1]))).map fun t => Memory.read t.storage 0) = some 0x00 := by decide

/-- B9: a partial flush keeps what is held. -/
theorem test_flush_partial :
    seen (exec .flush (bench 4 [1, 2, 3] 0 0 [1])) = some ([1, 2, 3], 0, 0, [⟨[1, 2, 3], 1⟩]) ∧
    errors (exec .flush (bench 4 [1, 2, 3] 0 0 [1])) = some (true, 1, 1, 3) := by decide

/-! ### Status, errors and the host's events -/

/-- T2 and T4: STATUS. -/
theorem test_status_words :
    (after (execute 0x30000001 (bench 4 [] 5 0xA800 []))).map statusWord = some 0xA8000505 ∧
    (after (execute 0x30030005 (bench 8 [] 0 0 []))).map statusWord = some 0xA0000300 := by decide

/-- E11: while `err = 1` a word changes nothing. -/
theorem test_discarded :
    after (execute 0x00000055 { bench 4 [] 0 0 [] with err := true, errCode := 2 }) =
      some { bench 4 [] 0 0 [] with err := true, errCode := 2 } := by decide

/-- A host's access to the memory form: a write of the value an unlisted offset reads as leaves no cell. -/
theorem test_memory_canonical : Memory.write (stored [7]) 0 0 = [] ∧ Memory.wf (stored [1, 0, 3]) = true := by decide

/-- R100: reset from an error state. -/
theorem test_reset_event :
    (after (step (queued { bench 4 [1] 3 0xE000 [] with err := true, errCode := 1 } [.reset]))).map
      (fun t => (statusWord t, levelWord t, errInfoWord t)) = some (0, 0, 0) := by decide

/-- A command runs as the first instruction after reset. -/
theorem test_first_step :
    (after (step (State.reset.withFetchWord 32 0x200000D8))).map heldBytes = some [0xFF, 0xD8] := by decide

/-! ### Witnesses: encoding -/

theorem test_witness_DecodeOfEncodeIsTheCommand :
    (Instr.wbits 1 0xFFFF).wf = true ∧ (Instr.wbits 16 0xFFFF).wf = true ∧ (Instr.wbyte 0xFF).wf = true ∧
    (Instr.wword 0xFFFF).wf = true ∧ (Instr.wmark 0xFF).wf = true ∧ Instr.align.wf = true ∧ Instr.flush.wf = true := by
  decide

/-- One word for each clause, WBITS at both ends of LEN. -/
theorem test_witness_DecodeReadsOpAndOperands :
    (0x000000FF#32).extractLsb' 21 7 = 0 ∧ (0x1000FFFF#32).extractLsb' 21 7 = 0 ∧
    (0x200000FF#32).extractLsb' 21 7 = 0 ∧ (0x3001FFFF#32).extractLsb' 21 7 = 0 ∧
    (0x3010FFFF#32).extractLsb' 21 7 = 0 ∧ (0x40000000#32).extractLsb' 21 7 = 0 ∧
    (0x50000000#32).extractLsb' 21 7 = 0 ∧
    (0x000000FF#32).extractLsb' 28 4 = 0x0 ∧ (0x1000FFFF#32).extractLsb' 28 4 = 0x1 ∧
    (0x200000FF#32).extractLsb' 28 4 = 0x2 ∧
    (0x3001FFFF#32).extractLsb' 28 4 = 0x3 ∧ ((0x3001FFFF#32).extractLsb' 16 5).toNat = 1 ∧
    (0x3010FFFF#32).extractLsb' 28 4 = 0x3 ∧ ((0x3010FFFF#32).extractLsb' 16 5).toNat = 16 ∧
    (0x40000000#32).extractLsb' 28 4 = 0x4 ∧ (0x50000000#32).extractLsb' 28 4 = 0x5 := by
  refine ⟨?_, ?_, ?_, ?_, ?_, ?_, ?_, ?_, ?_, ?_, ?_, ?_, ?_, ?_, ?_, ?_⟩ <;> decide

/-- The obligation's `illegal`, as one proposition. -/
abbrev listedIllegal (w : Word) : Prop :=
  6 ≤ (w.extractLsb' 28 4).toNat ∨ w.extractLsb' 21 7 ≠ 0 ∨
    (w.extractLsb' 28 4 = 0x3 ∧ ((w.extractLsb' 16 5).toNat = 0 ∨ 17 ≤ (w.extractLsb' 16 5).toNat))

/-- Each kind of illegal word at its boundary, and the legal words beside them. -/
theorem test_witness_IllegalWordsAreExactlyThoseListed :
    State.reset.err = false ∧
    6 ≤ ((0x60000000#32).extractLsb' 28 4).toNat ∧ 6 ≤ ((0xF0000000#32).extractLsb' 28 4).toNat ∧
    (0x00200000#32).extractLsb' 21 7 ≠ 0 ∧ (0x08000000#32).extractLsb' 21 7 ≠ 0 ∧
    ((0x3000FFFF#32).extractLsb' 28 4 = 0x3 ∧ ((0x3000FFFF#32).extractLsb' 16 5).toNat = 0) ∧
    ((0x30110000#32).extractLsb' 28 4 = 0x3 ∧ ((0x30110000#32).extractLsb' 16 5).toNat = 17) ∧
    ¬ listedIllegal 0x30010000 ∧ ¬ listedIllegal 0x30100000 ∧ ¬ listedIllegal 0x5000FFFF ∧
    ¬ listedIllegal 0x001FFFFF := by
  refine ⟨?_, ?_, ?_, ?_, ?_, ?_, ?_, ?_, ?_, ?_, ?_⟩ <;> decide

/-- One word for each check, the first also failing the later ones. -/
theorem test_witness_DecodeChecksInOrder :
    (0x60200000#32).extractLsb' 21 7 ≠ 0 ∧
    ((0x60000000#32).extractLsb' 21 7 = 0 ∧ 6 ≤ ((0x60000000#32).extractLsb' 28 4).toNat) ∧
    ((0x30000001#32).extractLsb' 21 7 = 0 ∧ (0x30000001#32).extractLsb' 28 4 = 0x3 ∧
      ((0x30000001#32).extractLsb' 16 5).toNat = 0) ∧
    ((0x30110000#32).extractLsb' 21 7 = 0 ∧ (0x30110000#32).extractLsb' 28 4 = 0x3 ∧
      17 ≤ ((0x30110000#32).extractLsb' 16 5).toNat) := by decide

/-- The hypotheses on two words, as one proposition. -/
abbrev sameUsedFields (w w' : Word) : Prop :=
  w.extractLsb' 21 7 = 0 ∧ w'.extractLsb' 21 7 = 0 ∧ w.extractLsb' 28 4 = w'.extractLsb' 28 4 ∧
    (w.extractLsb' 28 4).toNat ≤ 5 ∧
    ((w.extractLsb' 28 4 = 0x0 ∨ w.extractLsb' 28 4 = 0x2) → w.extractLsb' 0 8 = w'.extractLsb' 0 8) ∧
    (w.extractLsb' 28 4 = 0x1 → w.extractLsb' 0 16 = w'.extractLsb' 0 16) ∧
    (w.extractLsb' 28 4 = 0x3 →
      w.extractLsb' 16 5 = w'.extractLsb' 16 5 ∧
      1 ≤ (w.extractLsb' 16 5).toNat ∧ (w.extractLsb' 16 5).toNat ≤ 16 ∧
      (w.extractLsb' 0 16).toNat % 2 ^ (w.extractLsb' 16 5).toNat =
        (w'.extractLsb' 0 16).toNat % 2 ^ (w.extractLsb' 16 5).toNat)

/-- Two different words of every OP; E8, W5, E9 and E10 among them. -/
theorem test_witness_IgnoredFieldsDoNotMatter :
    sameUsedFields 0x0000AB12 0x001F0012 ∧ sameUsedFields 0x1000FFC0 0x1011FFC0 ∧
    sameUsedFields 0x2000FFD8 0x200000D8 ∧ sameUsedFields 0x3004FFF5 0x30040005 ∧
    sameUsedFields 0x3001FFFF 0x30010001 ∧ sameUsedFields 0x4000FFFF 0x40000000 ∧
    sameUsedFields 0x501F1234 0x50000000 := by
  refine ⟨?_, ?_, ?_, ?_, ?_, ?_, ?_⟩ <;> decide

/-! ### Witnesses: the step and the host -/

theorem test_witness_StepRunsTheDecodedCommand :
    (queued State.reset [.command 0x30030005]).booted = true ∧
    (queued State.reset [.command 0x30030005]).hostQueue = .command 0x30030005 :: [] ∧
    decode 0x30030005 = .ok (.wbits 3 0b101) := by decide

theorem test_witness_IdleBlockHoldsItsState : (bench 4 [1] 3 0xE000 []).hostQueue = [] := rfl

theorem test_witness_ResetEventReinitialises :
    (queued (bench 4 [1] 3 0xE000 []) [.reset]).hostQueue = .reset :: [] := rfl

theorem test_witness_ResetEventFramesTheEnvironment :
    (queued (bench 4 [1] 3 0xE000 [2]) [.reset]).hostQueue = .reset :: [] := rfl

theorem test_witness_UnmodelledRunsAreRefused :
    ({ State.reset with booted := false, hostQueue := [.command 0] }.booted = false ∧
      { State.reset with booted := false, hostQueue := [.command 0] }.hostQueue = .command 0 :: []) ∧
    (queued State.reset [.resetInside 0]).hostQueue = .resetInside 0 :: [] ∧
    (queued State.reset [.commandInside 0]).hostQueue = .commandInside 0 :: [] := by decide

/-- An idle step, a command, a reset event, an illegal word and a partial flush. -/
theorem test_witness_StepKeepsTheInvariant :
    ∀ e ∈ [[], [HostEvent.command 0x300D1FFF], [.reset], [.command 0x60000000], [.command 0x00000001]],
      (queued (bench 2 [9] 3 0xA000 [1]) e).Inv ∧
      (after (step (queued (bench 2 [9] 3 0xA000 [1]) e))).isSome = true := by decide

/-- States that meet the invariant: `C` at both ends, 15 bits pending, a full buffer after a partial flush. -/
theorem test_witness_EveryCommandEndsWithANextState :
    (bench 1 [] 15 0xFFFE []).Inv ∧ (bench (2 ^ 32 - 1) [] 0 0 []).Inv ∧ (bench 4 [1, 0, 3] 1 0x8000 []).Inv ∧
    ∃ t, exec (.wbyte 1) (bench 2 [9] 0 0 [1]) = .next t ∧ t.Inv ∧ t.err = true ∧ t.cursor = t.capacity :=
  ⟨by decide, by decide, by decide, _, rfl, by decide, rfl, rfl⟩

/-! ### Witnesses: buffer and sink -/

/-- Both clauses: the byte before the last, and the last. -/
theorem test_witness_EmitStoresAtTheCursor :
    ((bench 3 [1] 0 0 []).Inv ∧ (bench 3 [1] 0 0 []).err = false ∧
      (bench 3 [1] 0 0 []).cursor + 1 < (bench 3 [1] 0 0 []).capacity) ∧
    ((bench 3 [1, 2] 0 0 []).Inv ∧ (bench 3 [1, 2] 0 0 []).err = false ∧
      (bench 3 [1, 2] 0 0 []).cursor + 1 = (bench 3 [1, 2] 0 0 []).capacity) :=
  ⟨by decide, by decide⟩

/-- The three clauses: nothing held, all accepted, and the two ends of a partial answer. -/
theorem test_witness_FlushBufferDeliversTheHeldBytes :
    ((bench 3 [] 0 0 [9]).Inv ∧ 0 = min (answerAhead (bench 3 [] 0 0 [9]) 0 []) 0) ∧
    ∀ k ∈ [0, 1, 2], (bench 3 [1, 2] 0 0 [k]).Inv ∧ 0 < (bench 3 [1, 2] 0 0 [k]).cursor ∧
      k = min (answerAhead (bench 3 [1, 2] 0 0 [k]) 0 (heldBytes (bench 3 [1, 2] 0 0 [k])))
        (bench 3 [1, 2] 0 0 [k]).cursor :=
  ⟨by decide, by decide⟩

/-- The ends of `0 ≤ k ≤ n`, a byte inside and one outside the accepted part, and a step with a transaction. -/
theorem test_witness_SinkAnswersAnyCountUpToTheRequest :
    0 ≤ [1#8, 2#8].length ∧ 2 ≤ [1#8, 2#8].length ∧ 0 < (Transaction.mk [1, 2] 1).accepted ∧
    (Transaction.mk [1, 2] 1).accepted ≤ 1 ∧
    ∃ t, (queued (bench 2 [9] 0 0 [1]) [.command 0x00000001]).Inv ∧
      step (queued (bench 2 [9] 0 0 [1]) [.command 0x00000001]) = .next t ∧
      t.sinkLog = (bench 2 [9] 0 0 [1]).sinkLog ++ [⟨[9, 1], 1⟩] :=
  ⟨by decide, by decide, by decide, by decide, _, by decide, rfl, by decide⟩

/-- `m = 5` bytes and `m = C` bytes at `C = 2`. -/
theorem test_witness_FlushThreshold :
    (bench 2 [] 0 0 [2, 2]).Inv ∧ (bench 2 [] 0 0 [2, 2]).err = false ∧ (bench 2 [] 0 0 [2, 2]).cursor = 0 ∧
    acceptsNext (bench 2 [] 0 0 [2, 2]) ([1#8, 2#8, 3#8, 4#8, 5#8].length / 2) ∧
    acceptsNext (bench 2 [] 0 0 [2, 2]) ([1#8, 2#8].length / 2) ∧
    [1#8, 2#8].length = (bench 2 [] 0 0 [2, 2]).capacity :=
  ⟨by decide, rfl, rfl, accepts_of_script (by decide), accepts_of_script (by decide), rfl⟩

/-- A command whose transactions were accepted whole, and one whose last was not. -/
theorem test_witness_TransactionsFollowTheSinksAnswers :
    ∀ k ∈ [1, 2], (bench 2 [9] 0 0 [k]).Inv ∧ (Instr.wword 0xABCD).wf = true ∧ (bench 2 [9] 0 0 [k]).err = false ∧
      (after (exec (.wword 0xABCD) (bench 2 [9] 0 0 [k]))).isSome = true := by decide

/-- A marker, a code and a FLUSH. -/
theorem test_witness_SinkStreamFollowsEmitOrder :
    ∃ t, (bench 4 [] 0 0 [4]).Inv ∧ (∀ i ∈ [Instr.wmark 0xD8, .wbits 3 0b101, .flush], i.wf = true) ∧
      runCommands [.wmark 0xD8, .wbits 3 0b101, .flush] (bench 4 [] 0 0 [4]) = .next t ∧ t.err = false ∧
      [Instr.wmark 0xD8, .wbits 3 0b101, .flush].getLast? = some .flush :=
  ⟨_, by decide, by decide, rfl, rfl, rfl⟩

/-- Held bytes and pending bits. -/
theorem test_witness_FlushDeliversEverythingEmitted :
    ∃ t, (bench 4 [1, 2] 3 0xA000 [2]).Inv ∧ exec .flush (bench 4 [1, 2] 3 0xA000 [2]) = .next t ∧ t.err = false :=
  ⟨_, by decide, rfl, rfl⟩

/-! ### Witnesses: the byte path -/

/-- A block with one byte held of two, so that the next byte fills it: the premises of a full answer and, for each of
`k = 0` and `k = 1`, of a partial one. -/
theorem test_witness_WbyteAppendsOneRawByte :
    ((0x001FFFFF#32).extractLsb' 28 4 = 0x0 ∧ (0x001FFFFF#32).extractLsb' 21 7 = 0) ∧
    ((bench 2 [9] 0 0 [2]).Inv ∧ (bench 2 [9] 0 0 [2]).err = false ∧
      acceptsNext (bench 2 [9] 0 0 [2]) (transactionsFor (bench 2 [9] 0 0 [2]) [0xFF])) ∧
    (∀ k ∈ [0, 1], (bench 2 [9] 0 0 [k]).Inv ∧ (bench 2 [9] 0 0 [k]).cursor + 1 = 2 ∧
      k = min (answerAhead (bench 2 [9] 0 0 [k]) 0 (heldBytes (bench 2 [9] 0 0 [k]) ++ [0xFF])) 2 ∧ k < 2) ∧
    ∃ t, exec (.wbyte 0xFF) (bench 2 [9] 0 0 [2]) = .next t :=
  ⟨by decide, ⟨by decide, rfl, accepts_of_script (by decide)⟩, by decide, _, rfl⟩

theorem test_witness_WwordAppendsHighThenLowByte :
    ((0x101FFFFF#32).extractLsb' 28 4 = 0x1 ∧ (0x101FFFFF#32).extractLsb' 21 7 = 0) ∧
    ((bench 1 [] 0 0 [1, 1]).Inv ∧ (bench 1 [] 0 0 [1, 1]).err = false ∧
      acceptsNext (bench 1 [] 0 0 [1, 1]) (transactionsFor (bench 1 [] 0 0 [1, 1]) [0xAB, 0xCD])) ∧
    (∀ k ∈ [0, 1], (bench 2 [9] 0 0 [k]).Inv ∧ (bench 2 [9] 0 0 [k]).cursor + 1 = 2 ∧
      k = min (answerAhead (bench 2 [9] 0 0 [k]) 0 (heldBytes (bench 2 [9] 0 0 [k]) ++ [0xAB])) 2 ∧ k < 2) ∧
    ∃ t, exec (.wword 0xABCD) (bench 1 [] 0 0 [1, 0]) = .next t ∧ t.err = true ∧ heldBytes t = [0xCD] :=
  ⟨by decide, ⟨by decide, rfl, accepts_of_script (by decide)⟩, by decide, _, rfl, rfl, by decide⟩

theorem test_witness_WmarkAppendsMarkerAndCode :
    ((0x201FFFFF#32).extractLsb' 28 4 = 0x2 ∧ (0x201FFFFF#32).extractLsb' 21 7 = 0) ∧
    ((bench 1 [] 0 0 [1, 1]).Inv ∧ (bench 1 [] 0 0 [1, 1]).err = false ∧
      acceptsNext (bench 1 [] 0 0 [1, 1]) (transactionsFor (bench 1 [] 0 0 [1, 1]) [0xFF, 0xD8])) ∧
    (∀ k ∈ [0, 1], (bench 2 [9] 0 0 [k]).Inv ∧ (bench 2 [9] 0 0 [k]).cursor + 1 = 2 ∧
      k = min (answerAhead (bench 2 [9] 0 0 [k]) 0 (heldBytes (bench 2 [9] 0 0 [k]) ++ [0xFF])) 2 ∧ k < 2) ∧
    ∃ t, exec (.wmark 0xD8) (bench 1 [] 0 0 [1, 0]) = .next t ∧ t.err = true ∧ heldBytes t = [0xD8] :=
  ⟨by decide, ⟨by decide, rfl, accepts_of_script (by decide)⟩, by decide, _, rfl, rfl, by decide⟩

/-- Nothing held; everything accepted; the two ends of a partial answer; a FLUSH that succeeds. -/
theorem test_witness_FlushDeliversTheHeldBytes :
    ((0x501F1234#32).extractLsb' 28 4 = 0x5 ∧ (0x501F1234#32).extractLsb' 21 7 = 0) ∧
    ((bench 3 [] 0 0 []).Inv ∧ (bench 3 [] 0 0 []).err = false ∧ (bench 3 [] 0 0 []).cursor = 0) ∧
    ((bench 3 [1, 2] 0 0 [2]).Inv ∧ 0 < (bench 3 [1, 2] 0 0 [2]).cursor ∧
      (bench 3 [1, 2] 0 0 [2]).cursor ≤
        answerAhead (bench 3 [1, 2] 0 0 [2]) 0 (heldBytes (bench 3 [1, 2] 0 0 [2]))) ∧
    (∀ k ∈ [0, 1], k = min (answerAhead (bench 3 [1, 2] 0 0 [k]) 0 (heldBytes (bench 3 [1, 2] 0 0 [k]))) 2 ∧ k < 2) ∧
    ∃ t, exec .flush (bench 3 [1, 2] 0 0 [2]) = .next t ∧ t.err = false :=
  ⟨by decide, by decide, by decide, by decide, _, rfl, rfl⟩

theorem test_witness_BytePathLeavesTheAccumulator :
    ∀ i ∈ [Instr.wbyte 1, .wword 0xABCD, .wmark 0xD8, .flush],
      (after (exec i (bench 2 [9] 5 0xA800 [2, 2]))).isSome = true := by decide

theorem test_witness_MarkerImmunity :
    (bench 1 [] 5 0xA800 [1, 1, 1]).Inv ∧ (bench 1 [] 5 0xA800 [1, 1, 1]).err = false ∧
    acceptsNext (bench 1 [] 5 0xA800 [1, 1, 1]) 3 :=
  ⟨by decide, rfl, accepts_of_script (by decide)⟩

/-! ### Witnesses: the bit path -/

/-- `total` at 15 and 16 and at its ends 1 and 31; the four bytes of W3 at `C = 1`. -/
theorem test_witness_WbitsPacksTheCode :
    ((0x3010FFFF#32).extractLsb' 28 4 = 0x3 ∧ (0x3010FFFF#32).extractLsb' 21 7 = 0 ∧
      1 ≤ ((0x3010FFFF#32).extractLsb' 16 5).toNat ∧ ((0x3010FFFF#32).extractLsb' 16 5).toNat ≤ 16) ∧
    ((bench 8 [] 0 0 []).Inv ∧ 0 + (1#5).toNat < 16) ∧ ((bench 8 [] 14 0x0004 []).Inv ∧ 14 + (1#5).toNat < 16) ∧
    ((bench 8 [] 15 0xFFFE []).Inv ∧ 16 ≤ 15 + (1#5).toNat) ∧ 16 ≤ 15 + (16#5).toNat ∧
    acceptsNext (bench 8 [] 15 0xFFFE []) (transactionsFor (bench 8 [] 15 0xFFFE []) (stuffed [0xFF, 0xFE])) ∧
    acceptsNext (bench 1 [] 0 0 [1, 1, 1, 1]) (transactionsFor (bench 1 [] 0 0 [1, 1, 1, 1]) (stuffed [0xFF, 0xFF])) ∧
    ∃ t, exec (.wbits 16 0xFF33) (bench 2 [] 0 0 [1]) = .next t ∧ t.err = true :=
  ⟨by decide, by decide, by decide, by decide, by decide, accepts_of_script (by decide),
    accepts_of_script (by decide), _, rfl, rfl⟩

/-- 15 bits joined, and 16 and 31. -/
theorem test_witness_WbitsIsConcatenationOfBitStrings :
    ((bench 8 [] 12 0x1230 []).Inv ∧
      (pendingBits (bench 8 [] 12 0x1230 []) ++ bitstr (0b101 % 2 ^ 3) 3).length < 16) ∧
    16 ≤ (pendingBits (bench 8 [] 12 0x1230 []) ++ bitstr (0b1011 % 2 ^ 4) 4).length ∧
    16 ≤ (pendingBits (bench 8 [] 15 0xFFFE []) ++ bitstr (0x1234 % 2 ^ 16) 16).length ∧
    acceptsNext (bench 1 [] 12 0x1230 [1, 1]) (transactionsFor (bench 1 [] 12 0x1230 [1, 1])
      (stuffed (bitsToBytes ((pendingBits (bench 1 [] 12 0x1230 [1, 1]) ++ bitstr (0b1011 % 2 ^ 4) 4).take 16)))) :=
  ⟨by decide, by decide, by decide, accepts_of_script (by decide)⟩

/-- Every command, with a byte of the bit path that is `0xFF`. -/
theorem test_witness_OnlyTheBitPathStuffs :
    (bench 8 [] 15 0xFFFE []).Inv ∧ (bench 8 [] 15 0xFFFE []).err = false ∧
    ∀ i ∈ [Instr.wbyte 0xFF, .wword 0xFFFF, .wmark 0xFF, .wbits 16 0xFFFF, .align],
      i.wf = true ∧ ((after (exec i (bench 8 [] 15 0xFFFE []))).map fun t => t.err) = some false := by decide

/-- W1 and W2, one after the other. -/
theorem test_witness_BitPackingRoundTrip :
    ∃ t, (bench 8 [] 0 0 []).Inv ∧ (bench 8 [] 0 0 []).accLen = 0 ∧
      (∀ c ∈ [((3 : BitVec 5), (0b101 : Half)), (13, 0x1FFF)], 1 ≤ c.1.toNat ∧ c.1.toNat ≤ 16) ∧
      runCommands ([((3 : BitVec 5), (0b101 : Half)), (13, 0x1FFF)].map fun c => .wbits c.1 c.2) (bench 8 [] 0 0 []) =
        .next t ∧ t.err = false :=
  ⟨_, by decide, rfl, by simp, rfl, rfl⟩

/-- A pending length for each case of R75 and its boundaries. -/
theorem test_witness_AlignByThePendingLength :
    ((0x4000FFFF#32).extractLsb' 28 4 = 0x4 ∧ (0x4000FFFF#32).extractLsb' 21 7 = 0) ∧
    (∀ c ∈ [(0, 0x0000#16), (1, 0x8000), (7, 0xFE00), (8, 0x4000), (9, 0x8080), (15, 0xFFFE)],
      (bench 8 [] c.1 c.2 []).Inv ∧ (bench 8 [] c.1 c.2 []).err = false) ∧
    acceptsNext (bench 1 [] 15 0xFFFE [1, 1, 1, 1])
      (transactionsFor (bench 1 [] 15 0xFFFE [1, 1, 1, 1]) (stuffed [0xFF, 0xFF])) ∧
    (∃ t, exec .align (bench 1 [] 3 0xE000 [0]) = .next t ∧ t.err = true) ∧
    ∃ t, exec .align (bench 1 [] 8 0x4000 [0]) = .next t ∧ t.err = true :=
  ⟨by decide, by decide, accepts_of_script (by decide), ⟨_, rfl, rfl⟩, _, rfl, rfl⟩

theorem test_witness_AlignPadsWithOneBits :
    (bench 1 [] 15 0xFFFE [1, 1, 1, 1]).Inv ∧ (bench 1 [] 15 0xFFFE [1, 1, 1, 1]).err = false ∧
    acceptsNext (bench 1 [] 15 0xFFFE [1, 1, 1, 1]) (transactionsFor (bench 1 [] 15 0xFFFE [1, 1, 1, 1])
      (stuffed (bitsToBytes (pendingBits (bench 1 [] 15 0xFFFE [1, 1, 1, 1]) ++
        List.replicate (8 - (pendingBits (bench 1 [] 15 0xFFFE [1, 1, 1, 1])).length % 8) true)))) :=
  ⟨by decide, rfl, accepts_of_script (by decide)⟩

/-- The most bytes, four. -/
theorem test_witness_BitPathAppendsAtMostFourBytes :
    (bench 8 [] 15 0xFFFE []).Inv ∧
    ∀ i ∈ [Instr.wbits 16 0xFFFF, .wbits 1 0, .align],
      i.wf = true ∧ ((after (exec i (bench 8 [] 15 0xFFFE []))).map fun t => t.err) = some false := by decide

/-! ### Witnesses: errors -/

/-- A block in the error state that W14 leaves, with the given events next. -/
def failed (events : List HostEvent) : State :=
  queued { bench 2 [0xFF, 0x00] 0 0 [] with
    err := true, errCode := 1, errInfo := 1, sinkLog := [⟨[0xFF, 0x00], 1⟩] } events

theorem test_witness_ErrorIsStickyUntilReset :
    (failed [.command 0x50000000]).Inv ∧ (failed [.command 0x50000000]).err = true ∧
    (failed [.command 0x50000000]).booted = true ∧
    (failed [.command 0x50000000]).hostQueue = .command 0x50000000 :: [] ∧
    ∀ e ∈ [[], [HostEvent.command 0x50000000], [.command 0x60000000], [.reset]],
      (after (step (failed e))).isSome = true := by decide

/-- Both causes. -/
theorem test_witness_ErrorsHaveTheListedCauses :
    ∀ e ∈ [HostEvent.command 0x60000000, .command 0x00000001],
      (queued (bench 2 [9] 0 0 [1]) [e]).Inv ∧ (queued (bench 2 [9] 0 0 [1]) [e]).err = false ∧
      ((after (step (queued (bench 2 [9] 0 0 [1]) [e]))).map fun t => t.err) = some true := by decide

/-- A step into the error state, one that stays in it and one out of it. -/
theorem test_witness_ErrorCodesAgreeWithTheFlag :
    (∀ e ∈ [HostEvent.command 0x60000000, .command 0x00000001, .command 0x40000000],
      (queued (bench 2 [9] 3 0xA000 [1]) [e]).Inv ∧
      (after (step (queued (bench 2 [9] 3 0xA000 [1]) [e]))).isSome = true) ∧
    ∀ e ∈ [HostEvent.command 0x50000000, .reset],
      (failed [e]).Inv ∧ (after (step (failed [e]))).isSome = true :=
  ⟨by decide, by decide⟩

/-- A FLUSH, and a WORD whose second transaction is the partial one. -/
theorem test_witness_PartialWriteEndsTheCommand :
    ((bench 4 [1, 2, 3] 0 0 [1]).Inv ∧
      ((after (exec .flush (bench 4 [1, 2, 3] 0 0 [1]))).map fun t => t.err) = some true) ∧
    (bench 1 [] 0 0 [1, 0]).Inv ∧ (Instr.wword 0xABCD).wf = true ∧ (bench 1 [] 0 0 [1, 0]).err = false ∧
    ((after (exec (.wword 0xABCD) (bench 1 [] 0 0 [1, 0]))).map fun t => t.err) = some true :=
  ⟨by decide, by decide, rfl, rfl, by decide⟩

/-- Every row of R92's table, ALIGN at 7 and at 8 pending bits. -/
theorem test_witness_AccumulatorAfterAnError :
    ∀ c ∈ [(Instr.wbyte 1, 5, 0xA800#16), (.wword 1, 5, 0xA800), (.wmark 1, 5, 0xA800), (.wbits 8 0xCD, 8, 0xAB00),
      (.align, 7, 0xFE00), (.align, 8, 0x4000)],
      (bench 1 [] c.2.1 c.2.2 [0]).Inv ∧ c.1.wf = true ∧ (bench 1 [] c.2.1 c.2.2 [0]).err = false ∧
      ((after (exec c.1 (bench 1 [] c.2.1 c.2.2 [0]))).map fun t => t.err) = some true := by decide

theorem test_witness_WbitsWithABadLengthIsIllegal :
    State.reset.err = false ∧ (0#5).toNat = 0 ∧ 17 ≤ (17#5).toNat ∧ 17 ≤ (31#5).toNat := by decide

/-! ### Witnesses: frames -/

theorem test_witness_CommandsFrameTheRestOfTheState :
    (bench 2 [9] 15 0xFFFE [2, 2, 2]).Inv ∧
    ∀ i ∈ [Instr.wbyte 1, .wword 1, .wmark 1, .wbits 16 0xFFFF, .wbits 0 1, .align, .flush],
      (after (exec i (bench 2 [9] 15 0xFFFE [2, 2, 2]))).isSome = true := by decide

/-- No transaction, one accepted whole, one partial. -/
theorem test_witness_AppendingCommandsFrameTheStorage :
    (∃ t, exec (.wbyte 5) (bench 3 [1] 0 0 []) = .next t ∧ t.sinkLog = (bench 3 [1] 0 0 []).sinkLog ++ []) ∧
    (∃ t, exec (.wword 5) (bench 2 [1] 0 0 [2]) = .next t ∧
      t.sinkLog = (bench 2 [1] 0 0 [2]).sinkLog ++ [⟨[1, 0], 2⟩]) ∧
    (∃ t, exec (.wword 5) (bench 2 [1] 0 0 [0]) = .next t ∧
      t.sinkLog = (bench 2 [1] 0 0 [0]).sinkLog ++ [⟨[1, 0], 0⟩]) ∧
    (bench 3 [1] 0 0 []).Inv ∧ (bench 2 [1] 0 0 [2]).Inv ∧ (bench 2 [1] 0 0 [0]).Inv :=
  ⟨⟨_, rfl, by decide⟩, ⟨_, rfl, by decide⟩, ⟨_, rfl, by decide⟩, by decide, by decide, by decide⟩

theorem test_witness_FlushFramesTheStorage :
    ∀ k ∈ [1, 3], (bench 4 [1, 2, 3] 0 0 [k]).Inv ∧ (bench 4 [1, 2, 3] 0 0 [k]).err = false ∧
      ((after (exec .flush (bench 4 [1, 2, 3] 0 0 [k]))).map fun t => t.err) = some (decide (k < 3)) := by decide

/-- Two blocks that hold `[1]` and differ at offset 1. -/
theorem test_witness_StorageAboveTheCursorIsUnobservable :
    (bench 2 [1] 0 0 [2]).Inv ∧ { bench 2 [1] 0 0 [2] with storage := stored [1, 7] }.Inv ∧
    heldBytes { bench 2 [1] 0 0 [2] with storage := stored [1, 7] } = heldBytes (bench 2 [1] 0 0 [2]) ∧
    ∃ t, exec (.wword 0xABCD) (bench 2 [1] 0 0 [2]) = .next t :=
  ⟨by decide, by decide, by decide, _, rfl⟩

theorem test_witness_IllegalCommandsChangeTheErrorFieldsAlone :
    (queued (bench 4 [1] 5 0xA800 []) [.command 0x30000001]).err = false ∧
    (queued (bench 4 [1] 5 0xA800 []) [.command 0x30000001]).booted = true ∧
    (queued (bench 4 [1] 5 0xA800 []) [.command 0x30000001]).hostQueue = .command 0x30000001 :: [] ∧
    decode 0x30000001 = .error .lengthOutOfRange := by decide

/-! ### Witnesses: status words and runs -/

/-- WBITS at 15 and 16 bits and at 31, ALIGN, and a byte-path command. -/
theorem test_witness_PendingLengthAfterEachCommand :
    ∀ c ∈ [(Instr.wbits 1 1, 14, 0x0004#16), (.wbits 1 1, 15, 0xFFFE), (.wbits 16 0x1234, 15, 0xFFFE),
      (.align, 8, 0x4000), (.wbyte 1, 5, 0xA800)],
      (bench 8 [] c.2.1 c.2.2 []).Inv ∧ c.1.wf = true ∧ (bench 8 [] c.2.1 c.2.2 []).err = false ∧
      ((after (exec c.1 (bench 8 [] c.2.1 c.2.2 []))).map fun t => t.err) = some false := by decide

theorem test_witness_StatusWordFields :
    (bench 8 [] 0 0 []).accLen ≤ 15 ∧ (bench 8 [] 15 0xFFFE []).accLen ≤ 15 := by decide

/-- Below `C` with `err = 0`, and at `C` after a partial flush. -/
theorem test_witness_LevelAndErrInfoWords :
    (bench 2 [9] 0 0 []).Inv ∧ (bench 2 [9] 0 0 []).err = false ∧ (failed []).Inv ∧ (failed []).cursor = 2 :=
  ⟨by decide, rfl, by decide, rfl⟩

theorem test_witness_QueueOfWordsRunsTheCommands :
    State.reset.booted = true ∧ ∀ i ∈ [Instr.wmark 0xD8, .wbits 3 0b101, .flush], i.wf = true := by decide

end Sys2Proof.Tests
end

section
/-! PROOFS. The family 00_scope.md: a step runs the decoded command, a queue of words runs the commands, every command
ends with a next state, which transactions it makes and what it leaves alone. -/

namespace Sys2Proof.Machine

/-! ### Decoding what the encoder writes (R48–R54, R59) -/

@[simp] theorem opField_packWord (op : BitVec 4) (len : BitVec 5) (data : Half) :
    opField (packWord op len data) = op := (Laws.Layout.packWord_layout op len data).1

@[simp] theorem rsvField_packWord (op : BitVec 4) (len : BitVec 5) (data : Half) :
    rsvField (packWord op len data) = 0 := (Laws.Layout.packWord_layout op len data).2

@[simp] theorem lenField_packWord (op : BitVec 4) (len : BitVec 5) (data : Half) :
    lenField (packWord op len data) = len := by
  apply BitVec.eq_of_getLsbD_eq
  intro i hi
  simp [lenField, packWord, hi, show 16 + i < 28 by omega, show 16 + i < 32 by omega]

@[simp] theorem dataField_packWord (op : BitVec 4) (len : BitVec 5) (data : Half) :
    dataField (packWord op len data) = data := by
  apply BitVec.eq_of_getLsbD_eq
  intro i hi
  simp [dataField, packWord, hi, show i < 28 by omega, show i < 32 by omega]

@[simp] theorem byteOperand_setWidth (b : Byte) : byteOperand (b.setWidth 16) = b := by
  apply BitVec.eq_of_getLsbD_eq
  intro i hi
  simp [byteOperand, hi, show i < 16 by omega]

/-- Decoding undoes encoding: each field is read back where the encoder put it. -/
theorem decode_encode {i : Instr} (hi : i.wf = true) : decode (encode i) = .ok i := by
  cases i with
  | wbyte b => simp [decode, encode, opcodeOf]
  | wword w => simp [decode, encode, opcodeOf]
  | wmark code => simp [decode, encode, opcodeOf]
  | wbits len data => simpa [decode, encode, opcodeOf] using show legalLength len = true from hi
  | align => simp [decode, encode, opcodeOf]
  | flush => simp [decode, encode, opcodeOf]

/-! ### The step and the decoded command (R12, R55) -/

theorem dropEvent_of_queue {s : State} {e : HostEvent} {rest : List HostEvent} (hq : s.hostQueue = e :: rest) :
    dropEvent s = { s with hostQueue := rest } := by
  rw [dropEvent, hq, List.tail_cons]

/-- Settles O8: a word that decodes to `i` is executed as `i`, at the state without the word. -/
theorem stepRunsTheDecodedCommand : Obligations.StepRunsTheDecodedCommand := by
  intro s w rest i hb hq hd
  rw [step_of_command hq hb, execute_ok _ hd, dropEvent_of_queue hq]

/-! ### No command reads the host's side of the port (R12, R105) -/

/-- `s` with this queue of host events and this boot flag. -/
def withPort (queue : List HostEvent) (booted : Bool) (s : State) : State :=
  { s with hostQueue := queue, booted := booted }

/-- `withPort` under a primitive's ending. -/
def Progress.withPort (queue : List HostEvent) (booted : Bool) : Progress → Progress
  | .done s => .done (Machine.withPort queue booted s)
  | .raised s => .raised (Machine.withPort queue booted s)
  | .broken f => .broken f

/-- `withPort` under the outcome of a command. -/
def outcomeWithPort (queue : List HostEvent) (booted : Bool) :
    Host.Outcome State Fault Refusal → Host.Outcome State Fault Refusal
  | .next s => .next (withPort queue booted s)
  | .fault f => .fault f
  | .refused r => .refused r

/-- A command body neither reads nor writes the host's queue and the boot flag: changing them commutes with it. -/
def IgnoresPort (body : State → Progress) : Prop :=
  ∀ queue booted s, body (withPort queue booted s) = (body s).withPort queue booted

/-- Sequencing at one state, so that `f` and `next` may depend on what was read of it. -/
theorem andThen_withPort {queue : List HostEvent} {booted : Bool} {p p' : Progress} {next : State → Progress}
    (hp : p' = p.withPort queue booted) (hn : IgnoresPort next) :
    p'.andThen next = (p.andThen next).withPort queue booted := by
  subst hp
  cases p with
  | done t => exact hn queue booted t
  | raised t => rfl
  | broken f => rfl

theorem IgnoresPort.andThen {f g : State → Progress} (hf : IgnoresPort f) (hg : IgnoresPort g) :
    IgnoresPort fun s => (f s).andThen g :=
  fun queue booted s => andThen_withPort (hf queue booted s) hg

theorem IgnoresPort.setAcc (value : Half) (len : Nat) : IgnoresPort fun s => .done (setAcc s value len) :=
  fun _ _ _ => rfl

theorem flushBuffer_ignoresPort : IgnoresPort flushBuffer := by
  intro queue booted s
  unfold flushBuffer
  simp only [apply_ite (Progress.withPort queue booted)]
  rfl

theorem emit_ignoresPort (b : Byte) : IgnoresPort (emit b) := by
  intro queue booted s
  unfold emit
  simp only [apply_ite (Progress.withPort queue booted), ← flushBuffer_ignoresPort queue booted]
  rfl

theorem emitStuffed_ignoresPort (b : Byte) : IgnoresPort (emitStuffed b) := by
  refine (emit_ignoresPort b).andThen fun queue booted s => ?_
  rw [apply_ite (Progress.withPort queue booted), ← emit_ignoresPort]
  rfl

theorem writeBits_ignoresPort (len code : Nat) : IgnoresPort (writeBits len code) := by
  intro queue booted s
  unfold writeBits
  rw [apply_ite (Progress.withPort queue booted)]
  exact if_congr Iff.rfl
    (andThen_withPort (emitStuffed_ignoresPort _ queue booted s)
      ((emitStuffed_ignoresPort _).andThen (IgnoresPort.setAcc _ _))) rfl

theorem flushPendingByte_ignoresPort : IgnoresPort flushPendingByte := by
  intro queue booted s
  unfold flushPendingByte
  rw [apply_ite (Progress.withPort queue booted)]
  exact if_congr Iff.rfl
    (andThen_withPort (emitStuffed_ignoresPort _ queue booted s) (IgnoresPort.setAcc _ _)) rfl

theorem alignBits_ignoresPort : IgnoresPort alignBits := fun queue booted s =>
  andThen_withPort (writeBits_ignoresPort _ _ queue booted s) flushPendingByte_ignoresPort

theorem illegalCommand_ignoresPort (w : Word) : IgnoresPort (illegalCommand w) := fun _ _ _ => rfl

theorem runCommand_withPort {body : State → Progress} (hb : IgnoresPort body) (queue : List HostEvent)
    (booted : Bool) (s : State) :
    runCommand body (withPort queue booted s) = outcomeWithPort queue booted (runCommand body s) := by
  cases he : s.err with
  | true =>
    rw [runCommand_discarded he, runCommand_discarded (show (withPort queue booted s).err = true from he)]
    rfl
  | false =>
    rw [runCommand_live he, runCommand_live (show (withPort queue booted s).err = false from he), hb]
    cases body s <;> rfl

/-- The meaning of a command is the same whatever the host will do next. -/
theorem exec_withPort (i : Instr) (queue : List HostEvent) (booted : Bool) (s : State) :
    exec i (withPort queue booted s) = outcomeWithPort queue booted (exec i s) := by
  cases i with
  | wbyte b => exact runCommand_withPort (emit_ignoresPort b) queue booted s
  | wword w => exact runCommand_withPort ((emit_ignoresPort _).andThen (emit_ignoresPort _)) queue booted s
  | wmark code => exact runCommand_withPort ((emit_ignoresPort _).andThen (emit_ignoresPort _)) queue booted s
  | wbits len data =>
    refine runCommand_withPort ?_ queue booted s
    split
    · exact writeBits_ignoresPort _ _
    · exact illegalCommand_ignoresPort _
  | align => exact runCommand_withPort alignBits_ignoresPort queue booted s
  | flush => exact runCommand_withPort flushBuffer_ignoresPort queue booted s

/-- Every command keeps the host's queue and the boot flag. -/
theorem exec_keeps_port {i : Instr} {s t : State} (h : exec i s = .next t) :
    t.hostQueue = s.hostQueue ∧ t.booted = s.booted := by
  have hw := exec_withPort i s.hostQueue s.booted s
  rw [show withPort s.hostQueue s.booted s = s from rfl, h] at hw
  have ht : t = withPort s.hostQueue s.booted t := Host.Outcome.next.inj hw
  rw [ht]
  exact ⟨rfl, rfl⟩

/-! ### Runs (R12, R113) -/

theorem run_succ_of_next {M : Host.Core} {s t : M.State} (h : M.step s = .next t) (k : Nat) :
    M.run (k + 1) s = M.run k t := by
  simp only [Host.Core.run, h]

theorem run_succ_of_fault {M : Host.Core} {s : M.State} {f : M.Fault} (h : M.step s = .fault f) (k : Nat) :
    M.run (k + 1) s = .fault f := by
  simp only [Host.Core.run, h]

theorem run_succ_of_refused {M : Host.Core} {s : M.State} {r : M.Refusal} (h : M.step s = .refused r) (k : Nat) :
    M.run (k + 1) s = .refused r := by
  simp only [Host.Core.run, h]

/-- The step of a block whose next event is the word of the command `i`. -/
theorem core_step_of_word {i : Instr} (hi : i.wf = true) (queue : List HostEvent) (s : State) :
    core.step (withPort (.command (encode i) :: queue) true s) = exec i (withPort queue true s) :=
  stepRunsTheDecodedCommand (withPort (.command (encode i) :: queue) true s) (encode i) queue i rfl rfl
    (decode_encode hi)

/-- The steps over the words of a list are the meanings of its commands, the queue and the boot flag aside. -/
theorem run_words_eq_runCommands (commands : List Instr) (hwf : ∀ i ∈ commands, i.wf = true)
    (rest : List HostEvent) (s : State) :
    Host.Core.run core commands.length
      (withPort (commands.map (fun i => .command (encode i)) ++ rest) true s) =
    runCommands commands (withPort rest true s) := by
  induction commands generalizing s with
  | nil => rfl
  | cons i commands ih =>
    have hstep := core_step_of_word (hwf i List.mem_cons_self)
      (commands.map (fun i => .command (encode i)) ++ rest) s
    rw [exec_withPort] at hstep
    rw [runCommands, exec_withPort]
    cases he : exec i s with
    | next t =>
      rw [he] at hstep
      exact (run_succ_of_next hstep _).trans (ih (fun j hj => hwf j (List.mem_cons_of_mem i hj)) t)
    | fault f =>
      rw [he] at hstep
      exact run_succ_of_fault hstep _
    | refused r =>
      rw [he] at hstep
      exact run_succ_of_refused hstep _

/-- Settles O51: by induction on the list, each step being the meaning of the decoded word. -/
theorem queueOfWordsRunsTheCommands : Obligations.QueueOfWordsRunsTheCommands := by
  intro commands rest s hb hwf
  have hs : ∀ queue : List HostEvent, { s with hostQueue := queue } = withPort queue true s := fun queue => by
    rw [withPort, ← hb]
  rw [hs, hs]
  exact run_words_eq_runCommands commands hwf rest s

/-! ### Every command ends with a next state (R11, R33) -/

/-- No command faults or is refused, from a state that meets the invariant: the buffer has room for the next byte while
`err = 0`, and a flush stays inside it. -/
theorem exec_total {s : State} (hs : s.Inv) (i : Instr) : ∃ t, exec i s = .next t := by
  cases he : s.err with
  | true => exact ⟨s, exec_discarded i he⟩
  | false =>
    obtain ⟨hacc, hm, _, hc, _⟩ := hs.live he
    by_cases hf : i = .flush
    · rw [hf, exec_flush, runCommand_live he]
      rcases flushBuffer_cases s with ⟨_, h⟩ | ⟨_, hgt, _⟩ | ⟨_, _, _, h⟩ | ⟨_, _, _, h⟩
      · exact ⟨_, by rw [h, Progress.done_outcome]⟩
      · omega
      · exact ⟨_, by rw [h, Progress.raised_outcome]⟩
      · exact ⟨_, by rw [h, Progress.done_outcome]⟩
    · cases hi : i.wf with
      | false => exact ⟨_, exec_illegal hi he⟩
      | true =>
        rw [exec_form hi hf he hacc hm hc, emitThenSet]
        have hsafe := fun f =>
          emitAll_not_broken (bytes := emittedBytes i s) (s := setAcc s (accBefore i s).1 (accBefore i s).2) hc f
        cases h : emitAll (emittedBytes i s) (setAcc s (accBefore i s).1 (accBefore i s).2) with
        | done u => exact ⟨_, rfl⟩
        | raised u => exact ⟨_, rfl⟩
        | broken f => exact absurd h (hsafe f)

/-- Nor does a word, legal or not (R55). -/
theorem execute_total {s : State} (hs : s.Inv) (w : Word) : ∃ t, execute w s = .next t := by
  cases he : s.err with
  | true => exact ⟨s, execute_discarded he⟩
  | false =>
    cases hd : decode w with
    | ok i =>
      rw [execute_ok s hd]
      exact exec_total hs i
    | error e => exact ⟨_, execute_error he hd⟩

/-- A step can fault only inside a command: every other event of the host is handled or refused (R99, R100, R114). -/
theorem step_fault {s : State} {f : Fault} (h : step s = .fault f) : ∃ w, execute w (dropEvent s) = .fault f := by
  unfold step portStep at h
  cases hq : s.hostQueue with
  | nil => simp [hq] at h
  | cons e rest =>
    rw [hq] at h
    cases e with
    | command w =>
      cases hb : s.booted with
      | true => exact ⟨w, by simpa [handleEvent, hb, execute] using h⟩
      | false => simp [handleEvent, hb] at h
    | reset => simp [handleEvent] at h
    | resetInside w => simp [handleEvent] at h
    | commandInside w => simp [handleEvent] at h

/-- The invariant does not speak of the host's queue. -/
theorem State.Inv.dropEvent {s : State} (hs : s.Inv) : (dropEvent s).Inv := hs

/-- Settles O16: commands and words are total, and a step faults nowhere else. -/
theorem everyCommandEndsWithANextState : Obligations.EveryCommandEndsWithANextState := by
  refine fun s hs => ⟨exec_total hs, execute_total hs, fun f h => ?_⟩
  obtain ⟨w, hw⟩ := step_fault h
  obtain ⟨t, ht⟩ := execute_total hs.dropEvent w
  rw [ht] at hw
  cases hw

/-! ### The transactions of a primitive (R14, R37, R87) -/

/-- `t` is reached from `s` through the transactions `new`, each answered by the sink's next answer, with the error
flag raised exactly where one of them is partial; the parameter and the session's start stay. -/
structure Transacts (s : State) (new : List Transaction) (t : State) : Prop where
  log : t.sinkLog = s.sinkLog ++ new
  answers : t.sinkAnswers = s.sinkAnswers.drop new.length
  answered : ∀ (j : Nat) (x : Transaction), new[j]? = some x →
    x.accepted = min (answerAhead s j x.request) x.request.length
  err : t.err = true ↔ s.err = true ∨ ∃ x ∈ new, x.accepted < x.request.length
  errFields : t.err = true ∨ (t.errCode = s.errCode ∧ t.errInfo = s.errInfo)
  capacity : t.capacity = s.capacity
  sessionStart : t.sessionStart = s.sessionStart

namespace Transacts

theorem refl (s : State) : Transacts s [] s :=
  ⟨by simp, by simp, by simp, by simp, .inr ⟨rfl, rfl⟩, rfl, rfl⟩

theorem storeByte (s : State) (b : Byte) : Transacts s [] (storeByte s b) :=
  ⟨by simp, by simp, by simp, by simp, .inr ⟨rfl, rfl⟩, rfl, rfl⟩

theorem setAcc (s : State) (value : Half) (len : Nat) : Transacts s [] (setAcc s value len) :=
  ⟨by simp, by simp, by simp, by simp, .inr ⟨rfl, rfl⟩, rfl, rfl⟩

/-- The answers ahead of `t` are those ahead of `s` behind the ones the transactions used up. -/
theorem answerAhead {s t : State} {new : List Transaction} (h : Transacts s new t) (j : Nat) (request : List Byte) :
    answerAhead t j request = answerAhead s (new.length + j) request := by
  unfold Machine.answerAhead
  rw [h.answers, h.log, List.getElem?_drop, List.length_append, Nat.add_assoc]

theorem trans {s t u : State} {new new' : List Transaction} (h : Transacts s new t) (h' : Transacts t new' u) :
    Transacts s (new ++ new') u where
  log := by rw [h'.log, h.log, List.append_assoc]
  answers := by rw [h'.answers, h.answers, List.drop_drop, List.length_append]
  answered j x hx := by
    by_cases hj : j < new.length
    · rw [List.getElem?_append_left hj] at hx
      exact h.answered j x hx
    · rw [List.getElem?_append_right (by omega)] at hx
      rw [h'.answered _ x hx, h.answerAhead, Nat.add_sub_cancel' (by omega)]
  err := by
    rw [h'.err, h.err, or_assoc]
    simp only [List.mem_append, or_and_right, exists_or]
  errFields := by
    rcases h'.errFields with hu | ⟨hc, hi⟩
    · exact .inl hu
    · rcases h.errFields with ht | ⟨hc', hi'⟩
      · exact .inl (h'.err.mpr (.inl ht))
      · exact .inr ⟨hc.trans hc', hi.trans hi'⟩
  capacity := h'.capacity.trans h.capacity
  sessionStart := h'.sessionStart.trans h.sessionStart

/-- One transaction whose count is the sink's answer is answered by the answer that is next (R37). -/
theorem answered_singleton {s : State} {request : List Byte} {k : Nat} (hk : sinkAnswer s request = k) (j : Nat)
    (x : Transaction) (hx : [(⟨request, k⟩ : Transaction)][j]? = some x) :
    x.accepted = min (Machine.answerAhead s j x.request) x.request.length := by
  obtain ⟨rfl, rfl⟩ : j = 0 ∧ x = ⟨request, k⟩ := by
    simpa [List.getElem?_singleton, eq_comm] using hx
  rw [← offeredAnswer_eq]
  exact hk.symm

/-- A failed flush is one partial transaction (R35, R87). -/
theorem failedFlush {s : State} (hk : sinkAnswer s (heldBytes s) < s.cursor) :
    Transacts s [⟨heldBytes s, sinkAnswer s (heldBytes s)⟩] (failedFlush s) where
  log := rfl
  answers := by simp [Machine.failedFlush]
  answered := answered_singleton rfl
  err := by simp [Machine.failedFlush, hk]
  errFields := .inl rfl
  capacity := rfl
  sessionStart := rfl

/-- A successful flush is one complete transaction (R34). -/
theorem flushedState {s : State} (hk : sinkAnswer s (heldBytes s) = s.cursor) :
    Transacts s [⟨heldBytes s, s.cursor⟩] (flushedState s) where
  log := rfl
  answers := by simp [Machine.flushedState]
  answered := answered_singleton hk
  err := by simp [Machine.flushedState]
  errFields := .inr ⟨rfl, rfl⟩
  capacity := rfl
  sessionStart := rfl

end Transacts

/-- Bytes appended to the end make at most one transaction each: the one of a byte that fills the buffer (R33). -/
theorem emitAll_transacts {bytes : List Byte} {s t : State} (h : emitAll bytes s = .done t) :
    ∃ new, new.length ≤ bytes.length ∧ Transacts s new t := by
  induction bytes generalizing s with
  | nil =>
    rw [emitAll_nil] at h
    cases h
    exact ⟨[], Nat.le_refl _, .refl _⟩
  | cons b rest ih =>
    rw [emitAll_cons] at h
    rcases emit_cases b s with ⟨_, he⟩ | ⟨_, he⟩ | ⟨_, _, he⟩ | ⟨hfull, hk, he⟩
    · simp [he] at h
    · rw [he, Progress.done_andThen] at h
      obtain ⟨new, hlen, hnew⟩ := ih h
      exact ⟨new, by simp; omega, (Transacts.storeByte s b).trans hnew⟩
    · simp [he] at h
    · rw [he, Progress.done_andThen] at h
      obtain ⟨new, hlen, hnew⟩ := ih h
      have hflush := Transacts.flushedState (s := storeByte s b) (hk.trans hfull.symm)
      exact ⟨_ :: new, by simpa using hlen, ((Transacts.storeByte s b).trans hflush).trans hnew⟩

/-! ### The transactions of a command (R11) -/

theorem stuffed_length_le (bytes : List Byte) : (stuffed bytes).length ≤ 2 * bytes.length := by
  induction bytes with
  | nil => simp [stuffed]
  | cons b rest ih =>
    have hb : (stuffed [b]).length ≤ 2 := by
      unfold stuffed
      rw [List.flatMap_singleton]
      split <;> simp
    rw [← List.singleton_append, stuffed_append, List.length_append, List.length_append, List.length_singleton]
    omega

@[simp] theorem bitsToBytes_length (bits : List Bool) : (bitsToBytes bits).length = bits.length / 8 := by
  simp [bitsToBytes]

/-- A command passes at most four bytes to `Emit`: two from the bit path, each perhaps stuffed (R11). -/
theorem emittedBytes_length_le (i : Instr) {s : State} (ha : accumulatorOk s) : (emittedBytes i s).length ≤ 4 := by
  have hstuffed : ∀ bits : List Bool, bits.length ≤ 16 → (stuffed (bitsToBytes bits)).length ≤ 4 := by
    intro bits hb
    have := stuffed_length_le (bitsToBytes bits)
    rw [bitsToBytes_length] at this
    omega
  cases i with
  | wbyte b => simp [emittedBytes]
  | wword w => simp [emittedBytes]
  | wmark code => simp [emittedBytes]
  | wbits len data =>
    rw [emittedBytes]
    split
    · exact hstuffed _ (List.length_take_le _ _)
    · simp
  | align =>
    refine hstuffed _ ?_
    have hlen := ha.1
    simp only [paddedBits, List.length_append, pendingBits_length, List.length_replicate]
    omega
  | flush => simp [emittedBytes]

/-- Everything a legal command that runs does to the sink. -/
theorem exec_transacts {i : Instr} {s t : State} (hs : s.Inv) (hi : i.wf = true) (he : s.err = false)
    (h : exec i s = .next t) : ∃ new, new.length ≤ 4 ∧ Transacts s new t := by
  by_cases hf : i = .flush
  · subst hf
    rcases exec_flush_result hs he h with ⟨_, rfl⟩ | ⟨_, hk, rfl⟩ | ⟨_, hk, rfl⟩
    · exact ⟨[], by simp, .refl t⟩
    · exact ⟨_, by simp, .failedFlush hk⟩
    · exact ⟨_, by simp, .flushedState hk⟩
  · obtain ⟨ha, hm, _, hc, _⟩ := hs.live he
    have hbytes := emittedBytes_length_le i ha
    have hbefore := Transacts.setAcc s (accBefore i s).1 (accBefore i s).2
    rcases exec_cases hi hf he ha hm hc h with ⟨u, hu, rfl⟩ | ⟨before, b, after, u, hsplit, hu, hfull, hk, rfl⟩
    · obtain ⟨new, hlen, hnew⟩ := emitAll_transacts hu
      refine ⟨new ++ [], ?_, (hbefore.trans hnew).trans (.setAcc u _ _)⟩
      rw [List.append_nil]
      omega
    · obtain ⟨new, hlen, hnew⟩ := emitAll_transacts hu
      have hflush := Transacts.failedFlush (s := storeByte u b) (by rw [storeByte_cursor, hfull]; exact hk)
      refine ⟨_, ?_, ((hbefore.trans hnew).trans (.storeByte u b)).trans hflush⟩
      rw [hsplit] at hbytes
      simp only [List.length_append, List.length_cons] at hbytes
      simp
      omega

/-- Settles O21: `exec_transacts`, with the error flag down at the start. -/
theorem transactionsFollowTheSinksAnswers : Obligations.TransactionsFollowTheSinksAnswers := by
  intro i s t hs hi he h
  obtain ⟨new, hlen, hnew⟩ := exec_transacts hs hi he h
  exact ⟨new, hnew.log, hlen, hnew.answers, hnew.answered, by simpa [he] using hnew.err⟩

/-! ### What every command leaves alone (R5, R12, R24, R86) -/

/-- Settles O43: a command is discarded, illegal, or a run of transactions. -/
theorem commandsFrameTheRestOfTheState : Obligations.CommandsFrameTheRestOfTheState := by
  intro i s t hs h
  obtain ⟨hqueue, hbooted⟩ := exec_keeps_port h
  cases he : s.err with
  | true =>
    rw [exec_discarded i he, Host.Outcome.next.injEq] at h
    subst h
    exact ⟨rfl, rfl, rfl, rfl, ⟨[], by simp, rfl⟩, .inl ⟨he, rfl, rfl⟩⟩
  | false =>
    cases hi : i.wf with
    | false =>
      rw [exec_illegal hi he, Host.Outcome.next.injEq] at h
      subst h
      exact ⟨rfl, rfl, rfl, rfl, ⟨[], by simp, rfl⟩, .inr ⟨rfl, rfl⟩⟩
    | true =>
      obtain ⟨new, _, hnew⟩ := exec_transacts hs hi he h
      refine ⟨hnew.capacity, hbooted, hqueue, hnew.sessionStart, ⟨new, hnew.log, hnew.answers⟩, ?_⟩
      cases ht : t.err with
      | true => exact .inr ⟨rfl, rfl⟩
      | false =>
        obtain hr | ⟨hcode, hinfo⟩ := hnew.errFields
        · exact absurd (ht.symm.trans hr) (by decide)
        · exact .inl ⟨rfl, hcode, hinfo⟩

end Sys2Proof.Machine
end

section
/-! PROOFS. The family 10_state.md: the invariant at reset and over every step, the error state, what no command
observes, the accumulator's length and the three status words. -/

namespace Sys2Proof.Machine

/-! ### The invariant inside a running command (R33, R38) -/

/-- The invariant while a command runs: `State.Inv` with `err = 0`, but the buffer may be full, as it is between the
byte that fills it and the flush this byte causes (R33). -/
structure Running (s : State) : Prop where
  capacity : capacityOk s
  accumulator : accumulatorOk s
  cursor : s.cursor ≤ s.capacity
  wf : Memory.wf s.storage = true
  below : Memory.below s.storage s.capacity
  err : s.err = false
  errCode : s.errCode = 0
  errInfo : s.errInfo = 0
  sessionStart : s.sessionStart ≤ s.sinkLog.length
  lawful : ∀ x ∈ s.sinkLog, 1 ≤ x.request.length ∧ x.request.length ≤ s.capacity ∧ x.accepted ≤ x.request.length
  complete : ∀ x ∈ session s, x.complete = true

theorem State.Inv.running {s : State} (hs : s.Inv) (he : s.err = false) : Running s := by
  obtain ⟨hcap, hacc, ⟨hcur, _, hwf, hbelow⟩, ⟨hzero, _⟩, hstart, hlaw, hcomplete, _⟩ := hs
  obtain ⟨hcode, hinfo⟩ := hzero he
  exact ⟨hcap, hacc, hcur, hwf, hbelow, he, hcode, hinfo, hstart, hlaw, hcomplete (by simp [hcode])⟩

namespace Running

/-- Where the buffer is not full, the command may end: the invariant holds. -/
theorem inv {s : State} (h : Running s) (hc : s.cursor < s.capacity) : s.Inv := by
  refine ⟨h.capacity, h.accumulator, ⟨h.cursor, fun _ => hc, h.wf, h.below⟩, ⟨fun _ => ⟨h.errCode, h.errInfo⟩, ?_⟩,
    h.sessionStart, h.lawful, fun _ => h.complete, ?_⟩
  · simp [h.err]
  · simp [h.errCode]

theorem setAcc {s : State} (h : Running s) {v : Half} {n : Nat} (ha : accumulatorOk (setAcc s v n)) :
    Running (setAcc s v n) :=
  { h with accumulator := ha }

theorem storeByte {s : State} (h : Running s) (hc : s.cursor < s.capacity) (b : Byte) : Running (storeByte s b) :=
  { h with
    cursor := hc
    wf := Memory.write_wf h.wf _ _
    below := Memory.write_below h.below hc _ }

/-- The transaction a flush makes obeys the law of R37, as the earlier ones do. -/
theorem lawful_flush {s : State} (h : Running s) (h0 : s.cursor ≠ 0) {k : Nat} (hk : k ≤ s.cursor) :
    ∀ x ∈ s.sinkLog ++ [⟨heldBytes s, k⟩],
      1 ≤ x.request.length ∧ x.request.length ≤ s.capacity ∧ x.accepted ≤ x.request.length := by
  refine List.forall_mem_append.mpr ⟨h.lawful, List.forall_mem_singleton.mpr ?_⟩
  rw [heldBytes_length]
  exact ⟨Nat.pos_of_ne_zero h0, h.cursor, hk⟩

/-- A successful flush ends with an empty buffer and one more complete transaction (R34). -/
theorem flushedState {s : State} (h : Running s) (h0 : s.cursor ≠ 0) : Running (flushedState s) :=
  { h with
    cursor := Nat.zero_le _
    wf := Memory.clear_wf h.wf _
    below := Memory.clear_below h.below h.cursor
    sessionStart := by
      have := h.sessionStart
      simp [Machine.flushedState]
      omega
    lawful := h.lawful_flush h0 (Nat.le_refl _)
    complete := by
      rw [session_of_log (t := Machine.flushedState s) h.sessionStart rfl rfl]
      exact List.forall_mem_append.mpr ⟨h.complete, by simp [Transaction.complete]⟩ }

/-- A partial flush ends the command in the error state, with the partial transaction last and its bytes still held
(R26, R87). -/
theorem failedFlush_inv {s : State} (h : Running s) (hk : sinkAnswer s (heldBytes s) < s.cursor) :
    (failedFlush s).Inv := by
  have hsession : session (failedFlush s) = session s ++ [⟨heldBytes s, sinkAnswer s (heldBytes s)⟩] :=
    session_of_log h.sessionStart rfl rfl
  have hcur := h.cursor
  have hstart := h.sessionStart
  refine ⟨h.capacity, h.accumulator, ⟨hcur, nofun, h.wf, h.below⟩, ⟨nofun, fun _ => .inl rfl⟩, ?_, ?_,
    fun hne => absurd rfl hne, fun _ => ⟨?_, ?_⟩⟩
  · simp [failedFlush]
    omega
  · exact h.lawful_flush (by omega) (by omega)
  · rw [hsession, List.dropLast_concat]
    exact h.complete
  · have hheld : heldBytes (failedFlush s) = heldBytes s := rfl
    have hinfo : (failedFlush s).errInfo = BitVec.ofNat 32 (sinkAnswer s (heldBytes s)) := rfl
    rw [lastIsReported, hsession, List.getLast?_concat]
    simp [hheld, hinfo, hk]

/-- Bytes appended to the end keep it and leave room for the next byte (R33). -/
theorem emitAll {bytes : List Byte} {s t : State} (hs : Running s) (hc : s.cursor < s.capacity)
    (h : emitAll bytes s = .done t) : Running t ∧ t.cursor < t.capacity := by
  induction bytes generalizing s with
  | nil =>
    rw [emitAll_nil] at h
    cases h
    exact ⟨hs, hc⟩
  | cons b rest ih =>
    rw [emitAll_cons] at h
    rcases emit_cases b s with ⟨_, he⟩ | ⟨hroom, he⟩ | ⟨_, _, he⟩ | ⟨hfull, _, he⟩
    · simp [he] at h
    · rw [he] at h
      exact ih (hs.storeByte hc b) hroom h
    · simp [he] at h
    · rw [he] at h
      exact ih ((hs.storeByte hc b).flushedState (by simp)) (show 0 < s.capacity by omega) h

end Running

/-! ### The invariant over commands and steps -/

theorem raiseError_illegalCommand_inv {s : State} (hs : s.Inv) (he : s.err = false) (w : Word) :
    (raiseError .illegalCommand w s).Inv := by
  have h := hs.running he
  exact ⟨h.capacity, h.accumulator, ⟨h.cursor, nofun, h.wf, h.below⟩, ⟨nofun, fun _ => .inr rfl⟩, h.sessionStart,
    h.lawful, fun _ => h.complete, fun h1 => by simp [causeCode] at h1⟩

/-- A FLUSH that runs keeps the invariant (R64). -/
theorem exec_flush_keeps_inv {s t : State} (hs : s.Inv) (he : s.err = false) (h : exec .flush s = .next t) :
    t.Inv := by
  have hrun := hs.running he
  rcases exec_flush_result hs he h with ⟨_, rfl⟩ | ⟨_, hk, rfl⟩ | ⟨h0, _, rfl⟩
  · exact hs
  · exact hrun.failedFlush_inv hk
  · exact (hrun.flushedState h0).inv hrun.capacity.1

/-- A command that appends keeps the invariant, whether it completes or a partial flush ends it (R33, R86). -/
theorem exec_appending_keeps_inv {i : Instr} {s t : State} (hs : s.Inv) (he : s.err = false) (hi : i.wf = true)
    (hf : i ≠ .flush) (h : exec i s = .next t) : t.Inv := by
  obtain ⟨hacc, hm, _, hc, _⟩ := hs.live he
  have hbefore : Running (setAcc s (accBefore i s).1 (accBefore i s).2) :=
    (hs.running he).setAcc (accBefore_ok hacc rfl rfl)
  rcases exec_cases hi hf he hacc hm hc h with ⟨u, hu, rfl⟩ | ⟨before, b, _, u, _, hu, hfull, hk, rfl⟩
  · obtain ⟨hrun, hroom⟩ := hbefore.emitAll hc hu
    exact (hrun.setAcc (accAfter_spec hi hacc rfl rfl).1).inv hroom
  · obtain ⟨hrun, hroom⟩ := hbefore.emitAll hc hu
    exact (hrun.storeByte hroom b).failedFlush_inv (by rw [storeByte_cursor, hfull]; exact hk)

/-- Every command keeps the invariant: discarded, illegal, FLUSH, or one that appends. -/
theorem exec_keeps_inv {i : Instr} {s t : State} (hs : s.Inv) (h : exec i s = .next t) : t.Inv := by
  cases he : s.err with
  | true =>
    rw [exec_discarded i he, Host.Outcome.next.injEq] at h
    exact h ▸ hs
  | false =>
    cases hi : i.wf with
    | false =>
      rw [exec_illegal hi he, Host.Outcome.next.injEq] at h
      exact h ▸ raiseError_illegalCommand_inv hs he _
    | true =>
      by_cases hf : i = .flush
      · exact exec_flush_keeps_inv hs he (hf ▸ h)
      · exact exec_appending_keeps_inv hs he hi hf h

/-- So does every word, legal or not (R55). -/
theorem execute_keeps_inv {w : Word} {s t : State} (hs : s.Inv) (h : execute w s = .next t) : t.Inv := by
  rcases execute_next h with ⟨_, rfl⟩ | ⟨_, i, _, hi⟩ | ⟨he, _, _, rfl⟩
  · exact hs
  · exact exec_keeps_inv hs hi
  · exact raiseError_illegalCommand_inv hs he w

/-- The reset event begins an empty session and leaves the transactions so far alone (R100, R101). -/
theorem resetEvent_inv {s : State} (hs : s.Inv) : (resetEvent s).Inv := by
  obtain ⟨hcap, _, _, _, _, hlaw, _, _⟩ := hs
  have hsession : session (resetEvent s) = [] := List.drop_length
  refine ⟨hcap, ⟨Nat.zero_le _, rfl⟩, ⟨Nat.zero_le _, fun _ => hcap.1, Memory.wf_nil, nofun⟩,
    ⟨fun _ => ⟨rfl, rfl⟩, nofun⟩, Nat.le_refl _, hlaw, fun _ => ?_, fun h1 => by simp at h1⟩
  simp [hsession]

/-- Settles O15: an idle step, the reset event and a command word each keep the invariant. -/
theorem stepKeepsTheInvariant : Obligations.StepKeepsTheInvariant := by
  intro s t hs h
  rcases step_next h with ⟨_, rfl⟩ | ⟨_, _, rfl⟩ | ⟨w, _, _, _, hw⟩
  · exact hs
  · exact resetEvent_inv hs.dropEvent
  · exact execute_keeps_inv hs.dropEvent hw

/-! ### The error state (R24, R25, R90, R93) -/

/-- In the error state a step takes the reset event, or does nothing but take an event from the queue (R90, R93). -/
theorem step_from_error {s t : State} (he : s.err = true) (h : step s = .next t) :
    (∃ rest, s.hostQueue = .reset :: rest ∧ t = resetEvent (dropEvent s)) ∨ t = s ∨ t = dropEvent s := by
  rcases step_next h with ⟨_, rfl⟩ | hreset | ⟨w, _, _, _, hw⟩
  · exact .inr (.inl rfl)
  · exact .inl hreset
  · rw [execute_discarded (s := dropEvent s) he, Host.Outcome.next.injEq] at hw
    exact .inr (.inr hw.symm)

/-- Settles O37: in the error state a word is discarded, and `step_from_error` leaves no other way out than reset. -/
theorem errorIsStickyUntilReset : Obligations.ErrorIsStickyUntilReset := by
  refine ⟨rfl, fun _ _ _ => rfl, fun s w rest he hb hq => ?_, fun s t h he => ?_⟩
  · rw [step_of_command hq hb, execute_discarded (s := dropEvent s) he, dropEvent_of_queue hq]
  · rcases step_from_error he h with ⟨rest, hq, rfl⟩ | rfl | rfl
    · exact .inl ⟨rest, hq, rfl⟩
    · exact .inr ⟨he, rfl, rfl, rfl, rfl, rfl, rfl⟩
    · exact .inr ⟨he, rfl, rfl, rfl, rfl, rfl, rfl⟩

/-- Settles O39: the invariant after the step gives the values; a step that keeps the flag keeps the code, since with
the flag down both codes are 0 and with the flag up the error state is left by reset alone. -/
theorem errorCodesAgreeWithTheFlag : Obligations.ErrorCodesAgreeWithTheFlag := by
  intro s t hs h
  obtain ⟨_, _, _, ⟨htzero, htcause⟩, _⟩ := stepKeepsTheInvariant s t hs h
  obtain ⟨_, _, _, ⟨hzero, _⟩, _⟩ := hs
  refine ⟨htzero, htcause, fun hne heq => hne ?_⟩
  cases he : s.err with
  | false => rw [(hzero he).1, (htzero (heq.trans he)).1]
  | true =>
    rcases step_from_error he h with ⟨_, _, rfl⟩ | rfl | rfl
    · exact absurd (heq.trans he) (by simp)
    · rfl
    · rfl

/-! ### The bytes at and above the cursor (R21) -/

/-- `u` is `s` with other bytes stored at and above the cursor; both memories are in canonical form. -/
structure SameButUnheld (s u : State) : Prop where
  fields : u = { s with storage := u.storage }
  held : heldBytes u = heldBytes s
  wf : Memory.wf s.storage = true
  wf' : Memory.wf u.storage = true

theorem State.Inv.storage_wf {s : State} (hs : s.Inv) : Memory.wf s.storage = true := by
  obtain ⟨_, _, ⟨_, _, hwf, _⟩, _⟩ := hs
  exact hwf

/-- Two primitives end the same way, in states that agree on everything but unheld bytes. -/
inductive Progress.SameButUnheld : Progress → Progress → Prop where
  | done {s u : State} (h : Machine.SameButUnheld s u) : SameButUnheld (.done s) (.done u)
  | raised {s u : State} (h : Machine.SameButUnheld s u) : SameButUnheld (.raised s) (.raised u)
  | broken (f : Fault) : SameButUnheld (.broken f) (.broken f)

namespace SameButUnheld

theorem cursor {s u : State} (h : SameButUnheld s u) : u.cursor = s.cursor := by rw [h.fields]

theorem capacity {s u : State} (h : SameButUnheld s u) : u.capacity = s.capacity := by rw [h.fields]

theorem sinkAnswer {s u : State} (h : SameButUnheld s u) (request : List Byte) :
    sinkAnswer u request = sinkAnswer s request := by
  rw [h.fields]
  rfl

theorem setAcc {s u : State} (h : SameButUnheld s u) (v : Half) (n : Nat) :
    SameButUnheld (setAcc s v n) (setAcc u v n) where
  fields := by rw [h.fields]; rfl
  held := h.held
  wf := h.wf
  wf' := h.wf'

theorem raiseError {s u : State} (h : SameButUnheld s u) (cause : ErrorCause) (info : Word) :
    SameButUnheld (raiseError cause info s) (raiseError cause info u) where
  fields := by rw [h.fields]; rfl
  held := h.held
  wf := h.wf
  wf' := h.wf'

theorem recordTransaction {s u : State} (h : SameButUnheld s u) (request : List Byte) (k : Nat) :
    SameButUnheld (recordTransaction s request k) (recordTransaction u request k) where
  fields := by rw [h.fields]; rfl
  held := h.held
  wf := h.wf
  wf' := h.wf'

theorem storeByte {s u : State} (h : SameButUnheld s u) (b : Byte) :
    SameButUnheld (storeByte s b) (storeByte u b) where
  fields := by rw [h.fields]; rfl
  held := by rw [heldBytes_storeByte h.wf, heldBytes_storeByte h.wf', h.held]
  wf := Memory.write_wf h.wf _ _
  wf' := Memory.write_wf h.wf' _ _

theorem emptyBuffer {s u : State} (h : SameButUnheld s u) : SameButUnheld (emptyBuffer s) (emptyBuffer u) where
  fields := by rw [h.fields]; rfl
  held := rfl
  wf := Memory.clear_wf h.wf _
  wf' := Memory.clear_wf h.wf' _

end SameButUnheld

/-- A flush offers the held bytes alone, so the two blocks make the same transaction (R34). -/
theorem flushBuffer_sameButUnheld {s u : State} (h : SameButUnheld s u) :
    (flushBuffer s).SameButUnheld (flushBuffer u) := by
  have hslice : Memory.slice u.storage s.cursor = Memory.slice s.storage s.cursor := by
    rw [← heldBytes, ← h.held, heldBytes, h.cursor]
  unfold flushBuffer
  simp only [h.cursor, h.capacity, hslice, h.sinkAnswer]
  split_ifs
  · exact .done h
  · exact .broken _
  · exact .raised ((h.recordTransaction _ _).raiseError _ _)
  · exact .done (h.recordTransaction _ _).emptyBuffer

theorem emit_sameButUnheld {s u : State} (h : SameButUnheld s u) (b : Byte) :
    (emit b s).SameButUnheld (emit b u) := by
  unfold emit
  rw [h.cursor, h.capacity]
  split_ifs
  · exact .broken _
  · exact flushBuffer_sameButUnheld (h.storeByte b)
  · exact .done (h.storeByte b)

namespace Progress.SameButUnheld

/-- Sequencing keeps the relation. -/
theorem andThen {p q : Progress} {f g : State → Progress} (h : p.SameButUnheld q)
    (hfg : ∀ s u, Machine.SameButUnheld s u → (f s).SameButUnheld (g u)) :
    (p.andThen f).SameButUnheld (q.andThen g) := by
  cases h with
  | done h => exact hfg _ _ h
  | raised h => exact .raised h
  | broken f => exact .broken f

theorem outcome {p q : Progress} {t : State} (h : p.SameButUnheld q) (hp : p.outcome = .next t) :
    ∃ u, q.outcome = .next u ∧ Machine.SameButUnheld t u := by
  cases h with
  | done h => exact ⟨_, rfl, Host.Outcome.next.inj hp ▸ h⟩
  | raised h => exact ⟨_, rfl, Host.Outcome.next.inj hp ▸ h⟩
  | broken f => cases hp

end Progress.SameButUnheld

theorem emitAll_sameButUnheld {s u : State} (h : SameButUnheld s u) (bytes : List Byte) :
    (emitAll bytes s).SameButUnheld (emitAll bytes u) := by
  induction bytes generalizing s u with
  | nil => exact .done h
  | cons b rest ih => exact (emit_sameButUnheld h b).andThen fun _ _ hrest => ih hrest

theorem emitThenSet_sameButUnheld {s u : State} (h : SameButUnheld s u) (bytes : List Byte) (v : Half) (n : Nat) :
    (emitThenSet bytes v n s).SameButUnheld (emitThenSet bytes v n u) :=
  (emitAll_sameButUnheld h bytes).andThen fun _ _ hset => .done (hset.setAcc v n)

namespace SameButUnheld

/-- The bytes a command sends and the accumulators it writes are read off the accumulator alone. -/
theorem emittedBytes {s u : State} (h : SameButUnheld s u) (i : Instr) : emittedBytes i u = emittedBytes i s := by
  rw [h.fields]
  cases i <;> rfl

theorem accBefore {s u : State} (h : SameButUnheld s u) (i : Instr) : accBefore i u = accBefore i s := by
  rw [h.fields]
  cases i <;> rfl

theorem accAfter {s u : State} (h : SameButUnheld s u) (i : Instr) : accAfter i u = accAfter i s := by
  rw [h.fields]
  cases i <;> rfl

theorem err {s u : State} (h : SameButUnheld s u) : u.err = s.err := by rw [h.fields]

end SameButUnheld

/-- Two blocks that differ in unheld bytes alone end every command so: discarded, illegal, FLUSH, or one that
appends. -/
theorem exec_sameButUnheld {i : Instr} {s t u : State} (hs : s.Inv) (hu : u.Inv) (h : SameButUnheld s u)
    (ht : exec i s = .next t) : ∃ v, exec i u = .next v ∧ SameButUnheld t v := by
  cases he : s.err with
  | true =>
    rw [exec_discarded i he, Host.Outcome.next.injEq] at ht
    exact ⟨u, exec_discarded i (h.err.trans he), ht ▸ h⟩
  | false =>
    have heu : u.err = false := h.err.trans he
    cases hi : i.wf with
    | false =>
      rw [exec_illegal hi he, Host.Outcome.next.injEq] at ht
      exact ⟨_, exec_illegal hi heu, ht ▸ h.raiseError _ _⟩
    | true =>
      by_cases hf : i = .flush
      · subst hf
        rw [exec_flush, runCommand_live he] at ht
        rw [exec_flush, runCommand_live heu]
        exact (flushBuffer_sameButUnheld h).outcome ht
      · obtain ⟨hacc, hm, _, hc, _⟩ := hs.live he
        obtain ⟨hacc', hm', _, hc', _⟩ := hu.live heu
        rw [exec_form hi hf he hacc hm hc] at ht
        rw [exec_form hi hf heu hacc' hm' hc', h.emittedBytes, h.accBefore, h.accAfter]
        exact (emitThenSet_sameButUnheld (h.setAcc _ _) _ _ _).outcome ht

/-- Settles O46: the two-run relation `SameButUnheld` holds at the start and every command keeps it. -/
theorem storageAboveTheCursorIsUnobservable : Obligations.StorageAboveTheCursorIsUnobservable := by
  intro i s t other hs hs' hheld h
  have hsame : SameButUnheld s { s with storage := other } := ⟨rfl, hheld, hs.storage_wf, hs'.storage_wf⟩
  obtain ⟨u, hu, hend⟩ := exec_sameButUnheld hs hs' hsame h
  exact ⟨u, hu, hend.fields, hend.held⟩

/-! ### The accumulator's length (R20, R66, R70, R78) -/

/-- A command that completes leaves the length `accAfter` gives, FLUSH included. -/
theorem exec_accLen {i : Instr} {s t : State} (hs : s.Inv) (hi : i.wf = true) (he : s.err = false)
    (h : exec i s = .next t) (ht : t.err = false) : t.accLen = (accAfter i s).2 := by
  by_cases hf : i = .flush
  · subst hf
    rcases exec_flush_result hs he h with ⟨_, rfl⟩ | ⟨_, _, rfl⟩ | ⟨_, _, rfl⟩
    · rfl
    · cases ht
    · rfl
  · rcases exec_result hs he hi hf h with hdone | ⟨_, _, _, _, hcut⟩
    · exact hdone.accLen
    · rw [hcut.result] at ht
      cases ht

/-- Settles O48: `exec_accLen`, read off for each command. -/
theorem pendingLengthAfterEachCommand : Obligations.PendingLengthAfterEachCommand := by
  intro i s t hs hi he h ht
  have hlen := exec_accLen hs hi he h ht
  obtain ⟨_, ⟨hle, _⟩, _⟩ := exec_keeps_inv hs h
  refine ⟨hle, ?_, ?_, ?_, ?_⟩
  · rintro len data rfl h16
    rw [hlen, accAfter, if_neg (by omega)]
  · rintro len data rfl h16
    rw [hlen, accAfter, if_pos h16]
  · rintro rfl
    exact hlen
  · intro hbits halign
    cases i with
    | wbits len data => exact absurd rfl (hbits len data)
    | align => exact absurd rfl halign
    | wbyte b => exact hlen
    | wword w => exact hlen
    | wmark code => exact hlen
    | flush => exact hlen

/-! ### Reset values (R31) -/

/-- Settles O12: the values of R31, the status words by evaluation. -/
theorem resetStateHasTheResetValues : Obligations.ResetStateHasTheResetValues := by
  unfold Obligations.ResetStateHasTheResetValues
  decide

/-- Settles O14: a closed fact about the reset state. -/
theorem resetStateMeetsTheInvariant : Obligations.ResetStateMeetsTheInvariant := by
  unfold Obligations.ResetStateMeetsTheInvariant
  decide

/-! ### The status words (R27–R29) -/

/-- Reading a field of a 32-bit word where it was put. -/
theorem extractLsb'_field_same {n : Nat} (x : BitVec n) (k : Nat) (h : n + k ≤ 32) :
    (x.setWidth 32 <<< k).extractLsb' k n = x := by
  apply BitVec.eq_of_getLsbD_eq
  intro i hi
  simp [hi, show k + i < 32 by omega]

/-- A field reads as zero at bits that lie below or above it. -/
theorem extractLsb'_field_other {n : Nat} (x : BitVec n) (k start m : Nat) (h : start + m ≤ k ∨ k + n ≤ start) :
    (x.setWidth 32 <<< k).extractLsb' start m = 0 := by
  apply BitVec.eq_of_getLsbD_eq
  intro i hi
  by_cases hk : start + i < k
  · simp [hk]
  · have hx : x.getLsbD (start + i - k) = false := BitVec.getLsbD_of_ge _ _ (by omega)
    simp [hx]

theorem toNat_field {n : Nat} (x : BitVec n) (k : Nat) (h : n + k ≤ 32) :
    (x.setWidth 32 <<< k).toNat = x.toNat <<< k := by
  have hx : x.toNat < 2 ^ 32 := Nat.lt_of_lt_of_le x.isLt (Nat.pow_le_pow_right (by decide) (by omega))
  have hlt : x.toNat <<< k < 2 ^ 32 := by
    rw [Nat.shiftLeft_eq]
    calc x.toNat * 2 ^ k < 2 ^ n * 2 ^ k := Nat.mul_lt_mul_of_pos_right x.isLt (Nat.two_pow_pos k)
      _ = 2 ^ (n + k) := (Nat.pow_add 2 n k).symm
      _ ≤ 2 ^ 32 := Nat.pow_le_pow_right (by decide) h
  rw [BitVec.toNat_shiftLeft, BitVec.toNat_setWidth, Nat.mod_eq_of_lt hx, Nat.mod_eq_of_lt hlt]

/-- STATUS as four fields, each at its place (R27). -/
theorem statusWord_fields (s : State) :
    statusWord s = (BitVec.ofBool s.err).setWidth 32 <<< 0 ||| s.errCode.setWidth 32 <<< 1 |||
      (BitVec.ofNat 5 s.accLen).setWidth 32 <<< 8 ||| s.accValue.setWidth 32 <<< 16 := by
  rw [BitVec.shiftLeft_zero, statusWord]

/-- Reading bits of STATUS reads them in each of its fields. -/
theorem extractLsb'_statusWord (s : State) (start m : Nat) :
    (statusWord s).extractLsb' start m =
      ((BitVec.ofBool s.err).setWidth 32 <<< 0).extractLsb' start m |||
        (s.errCode.setWidth 32 <<< 1).extractLsb' start m |||
        ((BitVec.ofNat 5 s.accLen).setWidth 32 <<< 8).extractLsb' start m |||
        (s.accValue.setWidth 32 <<< 16).extractLsb' start m := by
  simp only [statusWord_fields, BitVec.extractLsb'_or]

/-- Settles O49: each field is read where it was put, and the other fields are zero there. -/
theorem statusWordFields : Obligations.StatusWordFields := by
  refine ⟨fun s => ?_, fun s ha => ?_, rfl⟩
  · simp (disch := decide) [extractLsb'_statusWord, extractLsb'_field_same, extractLsb'_field_other,
      -BitVec.shiftLeft_zero]
  · have hlen : (BitVec.ofNat 5 s.accLen).toNat = s.accLen := by
      rw [BitVec.toNat_ofNat, Nat.mod_eq_of_lt (by omega)]
    constructor
    · have hfield : (statusWord s).extractLsb' 8 5 = BitVec.ofNat 5 s.accLen := by
        simp (disch := decide) [extractLsb'_statusWord, extractLsb'_field_same, extractLsb'_field_other,
          -BitVec.shiftLeft_zero]
      rw [hfield, hlen]
    · simp (disch := decide) only [statusWord_fields, BitVec.toNat_or, toNat_field, hlen, BitVec.toNat_ofBool,
        Nat.shiftLeft_zero]

/-- The cursor fits in LEVEL, since `C` does (R28, D16). -/
theorem levelWord_toNat {s : State} (hs : s.Inv) : (levelWord s).toNat = s.cursor := by
  obtain ⟨⟨_, hmax⟩, _, ⟨hcur, _⟩, _⟩ := hs
  unfold Config.maxCapacity at hmax
  rw [levelWord, BitVec.toNat_ofNat, Nat.mod_eq_of_lt (by omega)]

/-- Settles O50: LEVEL is the cursor, whose range the invariant gives. -/
theorem levelAndErrInfoWords : Obligations.LevelAndErrInfoWords := by
  refine ⟨fun s hs => ?_, fun _ => rfl, rfl, rfl⟩
  rw [levelWord_toNat hs, heldBytes_length]
  obtain ⟨_, _, ⟨hcur, hroom, _⟩, _⟩ := hs
  exact ⟨rfl, rfl, hroom, hcur⟩

end Sys2Proof.Machine
end

section
/-! PROOFS. The family 20_memory.md: one appended byte and one flush, the sink's answers, the transactions that
appending bytes makes, which bytes of the buffer a command changes, and the sink stream over a run. -/

namespace Sys2Proof.Machine

/-! ### One appended byte and one flush (R33–R35) -/

theorem emit_of_room {s : State} (h : s.cursor + 1 < s.capacity) (b : Byte) : emit b s = .done (storeByte s b) := by
  simp [emit, show ¬ s.capacity ≤ s.cursor by omega, show s.cursor + 1 ≠ s.capacity by omega]

theorem emit_of_last {s : State} (h : s.cursor + 1 = s.capacity) (b : Byte) :
    emit b s = flushBuffer (storeByte s b) := by
  simp [emit, h, show ¬ s.capacity ≤ s.cursor by omega]

/-- Settles O17: the stored state is `storeByte`. -/
theorem emitStoresAtTheCursor : Obligations.EmitStoresAtTheCursor := fun b s hs _ =>
  ⟨storeByte s b, rfl, fun a => Memory.read_write hs.storage_wf s.cursor a b, fun h => emit_of_room h b,
    fun h => emit_of_last h b⟩

/-- The answer to a flush, in the terms the statements use (R37). -/
theorem sinkAnswer_heldBytes (s : State) :
    sinkAnswer s (heldBytes s) = min (answerAhead s 0 (heldBytes s)) s.cursor := by
  rw [sinkAnswer, offeredAnswer_eq, heldBytes_length]

/-- Settles O18: `flushBuffer_cases`, with `failedFlush` and `flushedState` written out. -/
theorem flushBufferDeliversTheHeldBytes : Obligations.FlushBufferDeliversTheHeldBytes := by
  intro s k hs hk
  rw [← sinkAnswer_heldBytes] at hk
  subst hk
  have ⟨_, _, ⟨hcur, _⟩, _⟩ := hs
  rcases flushBuffer_cases s with ⟨h0, h⟩ | ⟨_, hgt, _⟩ | ⟨h0, _, hk, h⟩ | ⟨h0, _, hk, h⟩
  · exact ⟨fun _ => h, by omega, by omega⟩
  · omega
  · exact ⟨fun h0' => absurd h0' h0, by omega, fun _ => h⟩
  · refine ⟨fun h0' => absurd h0' h0, fun _ _ => ⟨flushedState s, h, ?_, fun a => ?_⟩, by omega⟩
    · rw [hk]
      rfl
    · exact Memory.read_clear hs.storage_wf s.cursor a

/-! ### The sink's answers (R37) -/

/-- Where the sink's next answer is listed, it is that answer, held to the law. -/
theorem sinkAnswer_listed (s : State) (k : Nat) (answers : List Nat) (request : List Byte) :
    sinkAnswer { s with sinkAnswers := k :: answers } request = min k request.length := rfl

theorem execute_capacity {w : Word} {s t : State} (hs : s.Inv) (h : execute w s = .next t) :
    t.capacity = s.capacity := by
  rcases execute_next h with ⟨_, rfl⟩ | ⟨_, i, _, hi⟩ | ⟨_, _, _, rfl⟩
  · rfl
  · exact (commandsFrameTheRestOfTheState i s t hs hi).1
  · rfl

/-- No step changes the build parameter (R5). -/
theorem step_capacity {s t : State} (hs : s.Inv) (h : step s = .next t) : t.capacity = s.capacity := by
  rcases step_next h with ⟨_, rfl⟩ | ⟨_, _, rfl⟩ | ⟨_, _, _, _, hw⟩
  · rfl
  · rfl
  · exact execute_capacity (s := dropEvent s) hs.dropEvent hw

/-- Settles O19: the answers by the operation's `min`; the new transactions by the invariant after the step. -/
theorem sinkAnswersAnyCountUpToTheRequest : Obligations.SinkAnswersAnyCountUpToTheRequest := by
  refine ⟨sinkAnswer_le, fun s request k hk => ?_, fun x k hk => ?_, fun x k hk => ?_,
    fun s t new hs h hlog x hx => ?_⟩
  · rw [sinkAnswer_listed, Nat.min_eq_left hk]
  · exact List.getElem?_take_of_lt hk
  · exact List.getElem?_take_eq_none hk
  · obtain ⟨_, _, _, _, _, hlaw, _⟩ := stepKeepsTheInvariant s t hs h
    rw [← step_capacity hs h]
    exact hlaw x (by rw [hlog]; exact List.mem_append_right _ hx)

/-! ### The transactions of a list of appended bytes (R36) -/

theorem heldBytes_of_cursor_zero {s : State} (h : s.cursor = 0) : heldBytes s = [] := by
  rw [heldBytes, h, Memory.slice_zero]

/-- Settles O20: `AppendsBytes` from an empty buffer, whose held bytes are none. -/
theorem flushThreshold : Obligations.FlushThreshold := by
  intro s bytes hs he h0 hacc
  obtain ⟨_, hm, _, hc, _⟩ := hs.live he
  have hall : heldBytes s ++ bytes = bytes := by rw [heldBytes_of_cursor_zero h0, List.nil_append]
  obtain ⟨t, ht, ⟨hlog, hcur, hheld, _⟩, _⟩ := emitAll_accepted (bytes := bytes) hm hc (by rwa [hall])
  rw [hall] at hlog hcur hheld
  refine ⟨t, ht, by rw [hlog, fullChunks, List.map_map]; rfl, hcur, hheld, fun hlen => ⟨?_, ?_⟩⟩
  · rw [hlog, fullChunks_exact (by omega) hlen, List.map_singleton]
  · rw [hcur, hlen, Nat.mod_self]

/-! ### Which bytes of the buffer a command changes (R33, R34) -/

/-- The frame of the buffer for a run from `s` to `t` through the transactions `new`: nothing changes outside the
buffer; without a complete transaction only the offsets from the old cursor up to the new one change; after one, the
rest of the buffer above the new cursor reads 0x00. -/
structure FramesStorage (s : State) (new : List Transaction) (t : State) : Prop where
  outside : ∀ a, s.capacity ≤ a → Memory.read t.storage a = Memory.read s.storage a
  undelivered : (∀ x ∈ new, x.accepted < x.request.length) → s.cursor ≤ t.cursor ∧
    ∀ a, a < s.cursor ∨ t.cursor ≤ a → Memory.read t.storage a = Memory.read s.storage a
  delivered : (∃ x ∈ new, x.accepted = x.request.length) →
    ∀ a, t.cursor ≤ a → a < s.capacity → Memory.read t.storage a = 0x00

theorem getElem?_heldBytes {s : State} {a : Nat} (h : a < s.cursor) :
    (heldBytes s)[a]? = some (Memory.read s.storage a) := by
  simp [heldBytes, Memory.slice, h]

theorem newTransactions_eq_nil_iff {s : State} {bytes : List Byte} :
    newTransactions s bytes = [] ↔ (heldBytes s ++ bytes).length / s.capacity = 0 := by
  rw [newTransactions, List.map_eq_nil_iff, fullChunks, List.map_eq_nil_iff, List.range_eq_nil]

/-- Without a full group the held bytes stay where they are and the appended ones follow (R33). -/
theorem AppendsBytes.held_of_short {s t : State} {bytes : List Byte} (h : AppendsBytes s bytes t)
    (h0 : (heldBytes s ++ bytes).length / s.capacity = 0) : heldBytes t = heldBytes s ++ bytes := by
  obtain ⟨_, _, hheld, _⟩ := h
  rw [hheld, h0, Nat.mul_zero, List.drop_zero]

theorem AppendsBytes.framesStorage {s t : State} {bytes : List Byte} (h : AppendsBytes s bytes t)
    (hc : 0 < s.capacity) : FramesStorage s (newTransactions s bytes) t where
  outside a ha := by
    have hlt := h.cursor_lt hc
    obtain ⟨_, _, _, hmem, _⟩ := h
    rw [hmem a (by omega), if_pos (.inr ha)]
  undelivered hpartial := by
    have hnil : newTransactions s bytes = [] := List.eq_nil_iff_forall_not_mem.mpr fun x hx => by
      have := newTransactions_mem hx
      have := hpartial x hx
      omega
    have h0 := newTransactions_eq_nil_iff.mp hnil
    have hheld := h.held_of_short h0
    have hcur : t.cursor = s.cursor + bytes.length := by
      rw [← heldBytes_length, hheld, List.length_append, heldBytes_length]
    obtain ⟨_, _, _, hmem, _⟩ := h
    refine ⟨by omega, fun a ha => ?_⟩
    rcases ha with ha | ha
    · apply Option.some.inj
      rw [← getElem?_heldBytes ha, ← getElem?_heldBytes (by omega), hheld,
        List.getElem?_append_left (by rwa [heldBytes_length])]
    · rw [hmem a ha, if_pos (.inl h0)]
  delivered hcomplete a ha hlt := by
    obtain ⟨x, hx, _⟩ := hcomplete
    have h0 := mt newTransactions_eq_nil_iff.mpr (List.ne_nil_of_mem hx)
    obtain ⟨_, _, _, hmem, _⟩ := h
    rw [hmem a ha, if_neg (by omega)]

/-- A byte that fills the buffer, and the partial flush it causes: the byte alone is stored, and nothing of the buffer
lies above the cursor (R35, R87). -/
theorem FramesStorage.failedFlush {s u : State} {new : List Transaction} (h : FramesStorage s new u)
    (hcap : u.capacity = s.capacity) (hfull : u.cursor + 1 = u.capacity) (b : Byte) (last : List Transaction) :
    FramesStorage s (new ++ last) (failedFlush (storeByte u b)) where
  outside a ha := (Memory.read_write_other _ b (by omega)).trans (h.outside a ha)
  undelivered hpartial := by
    obtain ⟨hle, hread⟩ := h.undelivered fun x hx => hpartial x (List.mem_append_left _ hx)
    refine ⟨Nat.le_succ_of_le hle, fun a (ha : a < s.cursor ∨ u.cursor + 1 ≤ a) => ?_⟩
    exact (Memory.read_write_other _ b (by omega)).trans (hread a (by omega))
  delivered _ a (ha : u.cursor + 1 ≤ a) hlt := by omega

/-- Every command but FLUSH frames the buffer, with its own transactions. -/
theorem exec_framesStorage {i : Instr} {s t : State} (hs : s.Inv) (he : s.err = false) (hf : i ≠ .flush)
    (h : exec i s = .next t) : ∃ new, t.sinkLog = s.sinkLog ++ new ∧ FramesStorage s new t := by
  obtain ⟨_, _, _, hc, _⟩ := hs.live he
  have hpos : 0 < s.capacity := by omega
  cases hi : i.wf with
  | false =>
    rw [exec_illegal hi he, Host.Outcome.next.injEq] at h
    subst h
    exact ⟨[], by simp, fun _ _ => rfl, fun _ => ⟨Nat.le_refl _, fun _ _ => rfl⟩, by simp⟩
  | true =>
    rcases exec_result hs he hi hf h with hdone | ⟨before, b, _, u, hcut⟩
    · exact ⟨_, hdone.appends.1, hdone.appends.framesStorage hpos⟩
    · obtain ⟨hlog, _, _, _, _, _, _, _, hcap, _⟩ := hcut.appends
      rw [hcut.result]
      refine ⟨_, ?_, (hcut.appends.framesStorage hpos).failedFlush hcap hcut.full b
        [⟨heldBytes (storeByte u b), sinkAnswer (storeByte u b) (heldBytes (storeByte u b))⟩]⟩
      rw [← List.append_assoc]
      exact congrArg (· ++ _) hlog

/-- Settles O44: `exec_framesStorage`, the new transactions being those of the log. -/
theorem appendingCommandsFrameTheStorage : Obligations.AppendingCommandsFrameTheStorage := by
  intro i s t new hs he hf h hlog
  obtain ⟨new', hlog', hframe⟩ := exec_framesStorage hs he hf h
  obtain rfl : new = new' := List.append_cancel_left (hlog.symm.trans hlog')
  exact ⟨hframe.outside, hframe.undelivered, hframe.delivered⟩

/-- Settles O45: by what FLUSH can answer. -/
theorem flushFramesTheStorage : Obligations.FlushFramesTheStorage := by
  intro s t hs he h
  rcases exec_flush_result hs he h with ⟨h0, rfl⟩ | ⟨_, _, rfl⟩ | ⟨_, _, rfl⟩
  · exact ⟨by simp [he], fun _ => ⟨h0, by simp [h0]⟩⟩
  · exact ⟨fun _ => ⟨rfl, rfl⟩, nofun⟩
  · exact ⟨fun ht => absurd (he.symm.trans ht) (by decide),
      fun _ => ⟨rfl, Memory.read_clear hs.storage_wf s.cursor⟩⟩

/-! ### The reset event and the session (R38, R100) -/

@[simp] theorem session_resetEvent (s : State) : session (resetEvent s) = [] := List.drop_length

theorem step_of_reset {s : State} {rest : List HostEvent} (hq : s.hostQueue = .reset :: rest) :
    step s = .next (resetEvent (dropEvent s)) := by
  rw [step, portStep, hq]
  rfl

/-- Settles O11: the reset event's fields, its session being empty. -/
theorem resetEventFramesTheEnvironment : Obligations.ResetEventFramesTheEnvironment := by
  intro s rest hq
  refine ⟨_, step_of_reset hq, rfl, by simp [hq], rfl, rfl, rfl, ?_, ?_⟩
  · rw [sinkStream, session_resetEvent, List.flatMap_nil]
  · rw [appendedBytes, session_resetEvent, heldBytes_of_cursor_zero (resetEvent_cursor _)]
    rfl

/-! ### The sink stream over a run without error (R45, R46) -/

/-- A run that ends without error began without one, since a command is discarded in the error state (R90). -/
theorem exec_err_false {i : Instr} {s t : State} (h : exec i s = .next t) (ht : t.err = false) : s.err = false := by
  cases he : s.err with
  | false => rfl
  | true =>
    rw [exec_discarded i he, Host.Outcome.next.injEq] at h
    rw [← he, h, ht]

theorem State.Inv.session_complete {s : State} (hs : s.Inv) (he : s.err = false) :
    ∀ x ∈ session s, x.complete = true := (hs.running he).complete

/-- A successful flush moves the held bytes to the sink, so what was appended is unchanged by it. -/
theorem appendedBytes_flushedState {s : State} (hs : s.Inv) :
    appendedBytes (flushedState s) = appendedBytes s := by
  obtain ⟨_, _, _, _, hstart, _⟩ := hs
  have hsession : session (flushedState s) = session s ++ [⟨heldBytes s, s.cursor⟩] := session_of_log hstart rfl rfl
  rw [appendedBytes, hsession, heldBytes_of_cursor_zero (s := flushedState s) rfl]
  simp [Transaction.complete, appendedBytes]

/-- A FLUSH without error leaves the appended bytes and the accumulator as they were and nothing held. -/
theorem exec_flush_completed {s t : State} (hs : s.Inv) (h : exec .flush s = .next t) (ht : t.err = false) :
    appendedBytes t = appendedBytes s ∧ t.cursor = 0 ∧ t.accValue = s.accValue ∧ t.accLen = s.accLen := by
  rcases exec_flush_result hs (exec_err_false h ht) h with ⟨h0, rfl⟩ | ⟨_, _, rfl⟩ | ⟨_, _, rfl⟩
  · exact ⟨rfl, h0, rfl, rfl⟩
  · cases ht
  · exact ⟨appendedBytes_flushedState hs, rfl, rfl, rfl⟩

/-- A command without error appends exactly the bytes it passes to `Emit`. -/
theorem exec_appendedBytes {i : Instr} {s t : State} (hs : s.Inv) (hi : i.wf = true) (h : exec i s = .next t)
    (ht : t.err = false) : appendedBytes t = appendedBytes s ++ emittedBytes i s := by
  have he := exec_err_false h ht
  obtain ⟨_, _, _, _, hstart⟩ := hs.live he
  by_cases hf : i = .flush
  · subst hf
    rw [(exec_flush_completed hs h ht).1, emittedBytes, List.append_nil]
  · rcases exec_result hs he hi hf h with hdone | ⟨_, _, _, _, hcut⟩
    · exact appendedBytes_of_appends hstart hdone.appends
    · rw [hcut.result] at ht
      cases ht

/-- While `err = 0` the held bytes are what the stream lacks of the appended bytes (R45). -/
theorem sinkStream_prefix {s : State} (hs : s.Inv) (he : s.err = false) : sinkStream s <+: appendedBytes s := by
  rw [appendedBytes_eq_stream (hs.session_complete he)]
  exact List.prefix_append _ _

theorem sinkStream_of_cursor_zero {s : State} (hs : s.Inv) (he : s.err = false) (h0 : s.cursor = 0) :
    sinkStream s = appendedBytes s := by
  rw [appendedBytes_eq_stream (hs.session_complete he), heldBytes_of_cursor_zero h0, List.append_nil]

/-- Settles O23: a FLUSH keeps the appended bytes and empties the buffer, so the stream is all of them. -/
theorem flushDeliversEverythingEmitted : Obligations.FlushDeliversEverythingEmitted := by
  intro s t hs h ht
  obtain ⟨happended, h0, hacc⟩ := exec_flush_completed hs h ht
  exact ⟨(sinkStream_of_cursor_zero (exec_keeps_inv hs h) ht h0).trans happended, h0, hacc⟩

theorem runCommands_cons {i : Instr} {rest : List Instr} {s t : State} (h : runCommands (i :: rest) s = .next t) :
    ∃ u, exec i s = .next u ∧ runCommands rest u = .next t := by
  rw [runCommands] at h
  cases he : exec i s with
  | next u => exact ⟨u, rfl, by rwa [he] at h⟩
  | fault f => simp [he] at h
  | refused r => simp [he] at h

theorem emittedByRun_cons {i : Instr} {s u : State} (h : exec i s = .next u) (rest : List Instr) :
    emittedByRun (i :: rest) s = emittedBytes i s ++ emittedByRun rest u := by
  rw [emittedByRun, h]

theorem runCommands_err_false {commands : List Instr} {s t : State} (h : runCommands commands s = .next t)
    (ht : t.err = false) : s.err = false := by
  induction commands generalizing s with
  | nil => exact Host.Outcome.next.inj h ▸ ht
  | cons i rest ih =>
    obtain ⟨u, hu, hrest⟩ := runCommands_cons h
    exact exec_err_false hu (ih hrest)

theorem runCommands_keeps_inv {commands : List Instr} {s t : State} (hs : s.Inv)
    (h : runCommands commands s = .next t) : t.Inv := by
  induction commands generalizing s with
  | nil => exact Host.Outcome.next.inj h ▸ hs
  | cons i rest ih =>
    obtain ⟨u, hu, hrest⟩ := runCommands_cons h
    exact ih (exec_keeps_inv hs hu) hrest

/-- A run without error appends the bytes of its commands, in command order (R45). -/
theorem runCommands_appendedBytes {commands : List Instr} {s t : State} (hs : s.Inv)
    (hwf : ∀ i ∈ commands, i.wf = true) (h : runCommands commands s = .next t) (ht : t.err = false) :
    appendedBytes t = appendedBytes s ++ emittedByRun commands s := by
  induction commands generalizing s with
  | nil => rw [Host.Outcome.next.inj h, emittedByRun, List.append_nil]
  | cons i rest ih =>
    obtain ⟨u, hu, hrest⟩ := runCommands_cons h
    have hu_err := runCommands_err_false hrest ht
    have hstep := exec_appendedBytes hs (hwf i List.mem_cons_self) hu hu_err
    have htail := ih (exec_keeps_inv hs hu) (fun j hj => hwf j (List.mem_cons_of_mem i hj)) hrest
    rw [htail, hstep, emittedByRun_cons hu, List.append_assoc]

/-- A run without error whose last command is FLUSH leaves nothing held. -/
theorem runCommands_cursor_of_last_flush {commands : List Instr} {s t : State} (hs : s.Inv)
    (h : runCommands commands s = .next t) (ht : t.err = false) (hlast : commands.getLast? = some .flush) :
    t.cursor = 0 := by
  induction commands generalizing s with
  | nil => cases hlast
  | cons i rest ih =>
    obtain ⟨u, hu, hrest⟩ := runCommands_cons h
    cases rest with
    | nil =>
      obtain rfl : i = .flush := Option.some.inj hlast
      obtain rfl : u = t := Host.Outcome.next.inj hrest
      exact (exec_flush_completed hs hu ht).2.1
    | cons j rest => exact ih (exec_keeps_inv hs hu) hrest (by rwa [List.getLast?_cons_cons] at hlast)

/-- Settles O22: the appended bytes by induction on the list; the stream by the invariant at the end of the run. -/
theorem sinkStreamFollowsEmitOrder : Obligations.SinkStreamFollowsEmitOrder := by
  intro commands s t hs hwf h ht
  have hinv := runCommands_keeps_inv hs h
  exact ⟨runCommands_appendedBytes hs hwf h ht, sinkStream_prefix hinv ht, fun hlast =>
    sinkStream_of_cursor_zero hinv ht (runCommands_cursor_of_last_flush hs h ht hlast)⟩

end Sys2Proof.Machine
end

section
/-! PROOFS. The family 30_encoding.md: the encoder's words, the command and the operands each legal word stands for, the
illegal words, and the fields a command ignores. -/

namespace Sys2Proof.Machine

/-! ### The encoder's words (R59) and decoding them (R48–R54) -/

/-- Settles O1: the decoder reads each field where the encoder put it (`decode_encode`). -/
theorem decodeOfEncodeIsTheCommand : Obligations.DecodeOfEncodeIsTheCommand := fun _ hi => decode_encode hi

/-- Settles O6: by the fields of each command, the OP constant at bits 31:28 computed. -/
theorem encodeWritesTheAssemblersWord : Obligations.EncodeWritesTheAssemblersWord := by
  refine ⟨fun b => ?_, fun w => ?_, fun code => ?_, fun len data => ?_, rfl, rfl⟩
  · simp [encode, packWord, opcodeOf]
  · simp [encode, packWord, opcodeOf]
  · simp [encode, packWord, opcodeOf]
  · simp [encode, packWord, opcodeOf]

/-- The lengths R51 forbids. -/
theorem legalLength_eq_false_iff (len : BitVec 5) : legalLength len = false ↔ len.toNat = 0 ∨ 17 ≤ len.toNat := by
  rw [← Bool.not_eq_true, legalLength_iff]
  omega

/-- Settles O42: the refused word is the encoder's, which O6 gives. -/
theorem wbitsWithABadLengthIsIllegal : Obligations.WbitsWithABadLengthIsIllegal := by
  intro len data s he hlen
  have hwf : (Instr.wbits len data).wf = false := (legalLength_eq_false_iff len).2 hlen
  obtain ⟨_, _, _, hword, _⟩ := encodeWritesTheAssemblersWord
  rw [exec_illegal hwf he, hword]
  rfl

/-! ### The command of a legal word (R49, R54, R55) -/

theorem byteOperand_dataField (w : Word) : byteOperand (dataField w) = w.extractLsb' 0 8 := by
  apply BitVec.eq_of_getLsbD_eq
  intro i hi
  simp [byteOperand, dataField, hi]

/-- Settles O2: with RSV zero, OP alone selects the arm of `decode`; WBITS also needs its LEN legal. -/
theorem decodeReadsOpAndOperands : Obligations.DecodeReadsOpAndOperands := by
  intro w (hrsv : rsvField w = 0)
  simp only [← byteOperand_dataField]
  refine ⟨fun (hop : opField w = 0) => ?_, fun (hop : opField w = 1) => ?_, fun (hop : opField w = 2) => ?_,
    fun (hop : opField w = 3) hmin hmax => ?_, fun (hop : opField w = 4) => ?_, fun (hop : opField w = 5) => ?_⟩
  · simp [decode, hrsv, hop]
  · simp [decode, hrsv, hop, dataField]
  · simp [decode, hrsv, hop]
  · have hlen : legalLength (lenField w) = true := (legalLength_iff _).2 ⟨hmin, hmax⟩
    show decode w = .ok (.wbits (lenField w) (dataField w))
    simp [decode, hrsv, hop, hlen]
  · simp [decode, hrsv, hop]
  · simp [decode, hrsv, hop]

/-- Settles O7: each word is closed, and `decode` computes. -/
theorem specWordsDecode : Obligations.SpecWordsDecode := by
  unfold Obligations.SpecWordsDecode
  decide

/-- The six OPs a legal word can have (R49). -/
theorem op_cases {op : BitVec 4} (h : op.toNat ≤ 5) : op = 0 ∨ op = 1 ∨ op = 2 ∨ op = 3 ∨ op = 4 ∨ op = 5 := by
  decide +revert

/-! ### The illegal words (R56, R91) -/

theorem decode_of_rsv_ne_zero {w : Word} (h : rsvField w ≠ 0) : decode w = .error .reservedBits := if_pos h

theorem decode_of_reserved_op {w : Word} (hrsv : rsvField w = 0) (hop : 6 ≤ (opField w).toNat) :
    decode w = .error .reservedOp := by
  obtain ⟨n, hn⟩ := Nat.exists_eq_add_of_le' hop
  rw [decode, if_neg (not_not.2 hrsv), hn]
  rfl

theorem decode_of_bad_length {w : Word} (hrsv : rsvField w = 0) (hop : opField w = 3)
    (hlen : legalLength (lenField w) = false) : decode w = .error .lengthOutOfRange := by
  simp [decode, hrsv, hop, hlen]

/-- A word R56 lists is refused, whichever of its reasons comes first. -/
theorem decode_error_of_illegal {w : Word} (h : 6 ≤ (opField w).toNat ∨ rsvField w ≠ 0 ∨
    (opField w = 3 ∧ ((lenField w).toNat = 0 ∨ 17 ≤ (lenField w).toNat))) : ∃ e, decode w = .error e := by
  by_cases hrsv : rsvField w = 0
  · obtain hop | hne | ⟨hop, hlen⟩ := h
    · exact ⟨_, decode_of_reserved_op hrsv hop⟩
    · exact absurd hrsv hne
    · exact ⟨_, decode_of_bad_length hrsv hop ((legalLength_eq_false_iff _).2 hlen)⟩
  · exact ⟨_, decode_of_rsv_ne_zero hrsv⟩

/-- Every other word stands for a well-formed command. -/
theorem decode_ok_of_legal {w : Word} (hop : (opField w).toNat ≤ 5) (hrsv : rsvField w = 0)
    (hlen : opField w = 3 → legalLength (lenField w) = true) : ∃ i, i.wf = true ∧ decode w = .ok i := by
  obtain ⟨hbyte, hword, hmark, hbits, halign, hflush⟩ := decodeReadsOpAndOperands w hrsv
  obtain h | h | h | h | h | h := op_cases hop
  · exact ⟨_, rfl, hbyte h⟩
  · exact ⟨_, rfl, hword h⟩
  · exact ⟨_, rfl, hmark h⟩
  · obtain ⟨hmin, hmax⟩ := (legalLength_iff _).1 (hlen h)
    exact ⟨.wbits _ _, hlen h, hbits h hmin hmax⟩
  · exact ⟨_, rfl, halign h⟩
  · exact ⟨_, rfl, hflush h⟩

/-- Settles O3: a listed word is refused by `decode`, and `Execute` raises the error with it; every other one decodes. -/
theorem illegalWordsAreExactlyThoseListed : Obligations.IllegalWordsAreExactlyThoseListed := by
  refine fun w s he => ⟨fun hillegal => ?_, fun hlegal => ?_⟩
  · obtain ⟨e, hd⟩ := decode_error_of_illegal hillegal
    exact execute_error he hd
  · rw [not_or, not_or, not_not] at hlegal
    obtain ⟨hop, hrsv, hlen⟩ := hlegal
    obtain ⟨i, hwf, hd⟩ := decode_ok_of_legal (w := w) (Nat.le_of_not_lt hop) hrsv fun h3 =>
      eq_true_of_ne_false fun hbad => hlen ⟨h3, (legalLength_eq_false_iff _).1 hbad⟩
    exact ⟨i, hwf, hd, execute_ok s hd⟩

/-! ### Ignored fields (R52) -/

/-- Two words of one command execute alike. -/
theorem execute_eq_of_decode {w w' : Word} {i : Instr} (s : State) (h : decode w = .ok i) (h' : decode w' = .ok i) :
    execute w s = execute w' s := by
  rw [execute_ok s h, execute_ok s h']

/-- WBITS uses DATA only through its low LEN bits (R53). -/
theorem exec_wbits_congr {len : BitVec 5} {data data' : Half} (s : State) (hlen : legalLength len = true)
    (h : data.toNat % 2 ^ len.toNat = data'.toNat % 2 ^ len.toNat) :
    exec (.wbits len data) s = exec (.wbits len data') s := by
  simp only [exec_wbits, if_pos hlen, codeOperand_eq, h]

/-- Settles O5: in each OP but WBITS both words decode to one command; two WBITS commands have the same code. -/
theorem ignoredFieldsDoNotMatter : Obligations.IgnoredFieldsDoNotMatter := by
  intro w w' s hrsv hrsv' hop hle hbyte hword hbits
  obtain ⟨dbyte, dword, dmark, dbits, dalign, dflush⟩ := decodeReadsOpAndOperands w hrsv
  obtain ⟨dbyte', dword', dmark', dbits', dalign', dflush'⟩ := decodeReadsOpAndOperands w' hrsv'
  rw [← hop] at dbyte' dword' dmark' dbits' dalign' dflush'
  obtain h | h | h | h | h | h := op_cases hle
  · rw [← hbyte (.inl h)] at dbyte'
    exact execute_eq_of_decode s (dbyte h) (dbyte' h)
  · rw [← hword h] at dword'
    exact execute_eq_of_decode s (dword h) (dword' h)
  · rw [← hbyte (.inr h)] at dmark'
    exact execute_eq_of_decode s (dmark h) (dmark' h)
  · obtain ⟨hlen, hmin, hmax, hdata⟩ := hbits h
    rw [← hlen] at dbits'
    rw [execute_ok s (dbits h hmin hmax), execute_ok s (dbits' h hmin hmax)]
    exact exec_wbits_congr s ((legalLength_iff _).2 ⟨hmin, hmax⟩) hdata
  · exact execute_eq_of_decode s (dalign h) (dalign' h)
  · exact execute_eq_of_decode s (dflush h) (dflush' h)

end Sys2Proof.Machine
end

section
/-! PROOFS. The family 40_byte_path.md: what WBYTE, WWORD and WMARK append and how a partial flush ends them, what FLUSH
delivers, and that none of the four touches the accumulator. -/

namespace Sys2Proof.Machine

/-! ### A command of the byte path (R61–R63) -/

/-- The commands that append raw bytes and leave the accumulator alone. -/
inductive BytePath : Instr → Prop where
  | wbyte (b : Byte) : BytePath (.wbyte b)
  | wword (w : Half) : BytePath (.wword w)
  | wmark (code : Byte) : BytePath (.wmark code)

namespace BytePath

theorem wf {i : Instr} (h : BytePath i) : i.wf = true := by cases h <;> rfl

theorem ne_flush {i : Instr} (h : BytePath i) : i ≠ .flush := by rintro rfl; cases h

theorem accBefore {i : Instr} (h : BytePath i) (s : State) : accBefore i s = (s.accValue, s.accLen) := by
  cases h <;> rfl

theorem accAfter {i : Instr} (h : BytePath i) (s : State) : accAfter i s = (s.accValue, s.accLen) := by
  cases h <;> rfl

/-- While `err = 0` such a command is its bytes, appended one after the other. -/
theorem exec_eq {i : Instr} {s : State} (h : BytePath i) (hs : s.Inv) (he : s.err = false) :
    exec i s = (emitAll (emittedBytes i s) s).outcome := by
  obtain ⟨hacc, hm, _, hc, _⟩ := hs.live he
  rw [exec_form h.wf h.ne_flush he hacc hm hc, h.accBefore, h.accAfter]
  exact congrArg Progress.outcome (emitThenSet_same _ s fun _ ht => (emitAll_done hm hc ht).2)

end BytePath

/-- A byte that fills the buffer, with a partial answer to its flush (R33, R87). -/
theorem emit_of_partial_flush {s : State} {k : Nat} (b : Byte) (hm : Memory.wf s.storage = true)
    (hfull : s.cursor + 1 = s.capacity) (hk : k = min (answerAhead s 0 (heldBytes s ++ [b])) s.capacity)
    (hlt : k < s.capacity) : emit b s = .raised (afterPartialFlush s b k) := by
  have hanswer : sinkAnswer (storeByte s b) (heldBytes s ++ [b]) = k := by
    rw [hk, sinkAnswer, offeredAnswer_eq, List.length_append, heldBytes_length, List.length_singleton, hfull]
    rfl
  rcases emit_cases b s with ⟨hover, _⟩ | ⟨hroom, _⟩ | ⟨_, _, h⟩ | ⟨_, hall, _⟩
  · omega
  · omega
  · rw [h, failedFlush, heldBytes_storeByte hm, hanswer]
    simp [raiseError, recordTransaction, storeByte, afterPartialFlush, causeCode, hfull]
  · rw [heldBytes_storeByte hm, hanswer] at hall
    omega

/-- All that a command of the byte path can do from a state that meets the invariant with `err = 0`: its bytes are
appended where the sink accepts their transactions, a partial flush at the first byte ends it there, and it always ends
in one of these two ways, the partial flush being at any of its bytes. -/
theorem BytePath.appends_or_fails {i : Instr} {s : State} {b : Byte} {rest : List Byte} (h : BytePath i)
    (hs : s.Inv) (he : s.err = false) (hbytes : emittedBytes i s = b :: rest) :
    (acceptsNext s (transactionsFor s (b :: rest)) →
      ∃ t, exec i s = .next t ∧ AppendsBytes s (b :: rest) t ∧ t.accValue = s.accValue ∧ t.accLen = s.accLen) ∧
    (∀ k, s.cursor + 1 = s.capacity → k = min (answerAhead s 0 (heldBytes s ++ [b])) s.capacity → k < s.capacity →
      exec i s = .next (afterPartialFlush s b k)) ∧
    (∀ t, exec i s = .next t →
      (AppendsBytes s (b :: rest) t ∧ t.accValue = s.accValue ∧ t.accLen = s.accLen) ∨
        FailsAppending s (b :: rest) t) := by
  have hdone : ∀ {t}, Completed i s t →
      AppendsBytes s (emittedBytes i s) t ∧ t.accValue = s.accValue ∧ t.accLen = s.accLen := fun ht => by
    have hvalue := ht.accValue
    have hlen := ht.accLen
    rw [h.accAfter] at hvalue hlen
    exact ⟨ht.appends, hvalue, hlen⟩
  rw [← hbytes]
  refine ⟨fun hacc => ?_, fun k hfull hk hlt => ?_, fun t ht => ?_⟩
  · obtain ⟨t, ht, hcompleted⟩ := exec_completes hs he h.wf h.ne_flush hacc
    exact ⟨t, ht, hdone hcompleted⟩
  · rw [h.exec_eq hs he, hbytes, emitAll_cons, emit_of_partial_flush b hs.storage_wf hfull hk hlt]
    rfl
  · rcases exec_result hs he h.wf h.ne_flush ht with hcompleted | ⟨_, _, _, _, hcut⟩
    · exact .inl (hdone hcompleted)
    · have hfails := hcut.fails
      rw [h.accBefore, setAcc_same] at hfails
      exact .inr hfails

/-- Settles O24: WBYTE is the command of the byte path with this one byte. -/
theorem wbyteAppendsOneRawByte : Obligations.WbyteAppendsOneRawByte := by
  refine ⟨fun w hop hrsv => ?_, fun b s hs he => (BytePath.wbyte b).appends_or_fails hs he rfl⟩
  obtain ⟨hwbyte, _⟩ := decodeReadsOpAndOperands w hrsv
  exact hwbyte hop

/-- Settles O25: WWORD is the command of the byte path with the word's two bytes, the high one first. -/
theorem wwordAppendsHighThenLowByte : Obligations.WwordAppendsHighThenLowByte := by
  refine ⟨fun w hop hrsv => ?_, fun w s hs he => ?_⟩
  · obtain ⟨_, hwword, _⟩ := decodeReadsOpAndOperands w hrsv
    exact hwword hop
  · have hbytes : emittedBytes (.wword w) s = [highByte w, lowByte w] := by
      rw [emittedBytes, highByte_eq, lowByte_eq]
    exact (BytePath.wword w).appends_or_fails hs he hbytes

/-- Settles O26: WMARK is the command of the byte path with `0xFF` and its code. -/
theorem wmarkAppendsMarkerAndCode : Obligations.WmarkAppendsMarkerAndCode := by
  refine ⟨fun w hop hrsv => ?_, fun code s hs he => (BytePath.wmark code).appends_or_fails hs he rfl⟩
  obtain ⟨_, _, hwmark, _⟩ := decodeReadsOpAndOperands w hrsv
  exact hwmark hop

/-! ### FLUSH (R64) -/

theorem exec_flush_of_empty {s : State} (h0 : s.cursor = 0) : exec .flush s = .next s := by
  simp [exec_flush, runCommand, flushBuffer, h0]

/-- Settles O27: FLUSH is `FlushBuffer`, of which O18 speaks, and without error it leaves nothing held for the next. -/
theorem flushDeliversTheHeldBytes : Obligations.FlushDeliversTheHeldBytes := by
  refine ⟨fun w hop hrsv => ?_, fun s hs he => ?_⟩
  · obtain ⟨_, _, _, _, _, hflush⟩ := decodeReadsOpAndOperands w hrsv
    exact hflush hop
  obtain ⟨_, hall, hpartial⟩ := flushBufferDeliversTheHeldBytes s _ hs rfl
  have hexec : exec .flush s = (flushBuffer s).outcome := by rw [exec_flush, runCommand_live he]
  refine ⟨exec_flush_of_empty, fun hpos hacc => ?_, fun k hk hlt => ?_, fun t ht herr => ?_⟩
  · rw [Nat.min_eq_right hacc] at hall
    obtain ⟨t, ht, hfields, hread⟩ := hall hpos rfl
    exact ⟨t, by rw [hexec, ht]; rfl, hfields, hread⟩
  · subst hk
    rw [hexec, hpartial hlt]
    rfl
  · obtain ⟨_, h0, _⟩ := exec_flush_completed hs ht herr
    exact exec_flush_of_empty h0

/-! ### The accumulator (R66) -/

/-- However it ends, unless in a fault, the accumulator is this one. -/
def Progress.AccIs (value : Half) (len : Nat) : Progress → Prop
  | .done t => t.accValue = value ∧ t.accLen = len
  | .raised t => t.accValue = value ∧ t.accLen = len
  | .broken _ => True

theorem flushBuffer_accIs (s : State) : (flushBuffer s).AccIs s.accValue s.accLen := by
  rcases flushBuffer_cases s with ⟨_, h⟩ | ⟨_, _, h⟩ | ⟨_, _, _, h⟩ | ⟨_, _, _, h⟩
  · exact h ▸ ⟨rfl, rfl⟩
  · exact h ▸ trivial
  · exact h ▸ ⟨rfl, rfl⟩
  · exact h ▸ ⟨rfl, rfl⟩

theorem emit_accIs (b : Byte) (s : State) : (emit b s).AccIs s.accValue s.accLen := by
  rcases emit_cases b s with ⟨_, h⟩ | ⟨_, h⟩ | ⟨_, _, h⟩ | ⟨_, _, h⟩
  · exact h ▸ trivial
  · exact h ▸ ⟨rfl, rfl⟩
  · exact h ▸ ⟨rfl, rfl⟩
  · exact h ▸ ⟨rfl, rfl⟩

/-- What follows and keeps the accumulator leaves the one it finds. -/
theorem Progress.AccIs.andThen {value : Half} {len : Nat} {p : Progress} {next : State → Progress}
    (hp : p.AccIs value len) (hn : ∀ u, (next u).AccIs u.accValue u.accLen) : (p.andThen next).AccIs value len := by
  cases p with
  | done u =>
    obtain ⟨rfl, rfl⟩ := hp
    exact hn u
  | raised u => exact hp
  | broken f => trivial

theorem runCommand_accIs {body : State → Progress} {s t : State} (h : runCommand body s = .next t)
    (hb : (body s).AccIs s.accValue s.accLen) : t.accValue = s.accValue ∧ t.accLen = s.accLen := by
  rcases runCommand_next.mp h with ⟨_, rfl⟩ | ⟨_, h | h⟩
  · exact ⟨rfl, rfl⟩
  · rwa [h] at hb
  · rwa [h] at hb

/-- Settles O28: each of the four bodies is made of `emit` or `flushBuffer` alone. -/
theorem bytePathLeavesTheAccumulator : Obligations.BytePathLeavesTheAccumulator := by
  rintro i s t (⟨b, rfl⟩ | ⟨w, rfl⟩ | ⟨code, rfl⟩ | rfl) h
  · rw [exec_wbyte] at h
    exact runCommand_accIs h (emit_accIs b s)
  · rw [exec_wword] at h
    exact runCommand_accIs h ((emit_accIs (highByte w) s).andThen (emit_accIs (lowByte w)))
  · rw [exec_wmark] at h
    exact runCommand_accIs h ((emit_accIs Config.markerByte s).andThen (emit_accIs code))
  · rw [exec_flush] at h
    exact runCommand_accIs h (flushBuffer_accIs s)

/-! ### The marker in the sink stream (R67) -/

/-- Bytes appended to a buffer with room cause at most one transaction each (R33, R36). -/
theorem transactionsFor_le_length {s : State} (hc : s.cursor < s.capacity) (bytes : List Byte) :
    transactionsFor s bytes ≤ bytes.length := by
  have hmul : bytes.length ≤ bytes.length * s.capacity := Nat.le_mul_of_pos_right _ (by omega)
  rw [transactionsFor, List.length_append, heldBytes_length]
  refine Nat.lt_succ_iff.mp (Nat.div_lt_of_lt_mul ?_)
  rw [Nat.mul_succ, Nat.mul_comm]
  omega

/-- A FLUSH whose one transaction the sink accepts ends without error (R34). -/
theorem exec_flush_accepted {s : State} (hs : s.Inv) (he : s.err = false) (hacc : acceptsNext s 1) :
    ∃ t, exec .flush s = .next t ∧ t.err = false := by
  obtain ⟨_, _, _, hc, _⟩ := hs.live he
  have hanswer : sinkAnswer s (heldBytes s) = (heldBytes s).length :=
    sinkAnswer_of_accepts hacc (by rw [heldBytes_length]; omega)
  rw [heldBytes_length] at hanswer
  obtain ⟨t, ht⟩ := exec_total hs .flush
  refine ⟨t, ht, ?_⟩
  rcases exec_flush_result hs he ht with ⟨_, rfl⟩ | ⟨_, hlt, _⟩ | ⟨_, _, rfl⟩
  · exact he
  · omega
  · exact he

theorem runCommands_cons_of_next {i : Instr} {s u : State} (h : exec i s = .next u) (rest : List Instr) :
    runCommands (i :: rest) s = runCommands rest u := by
  rw [runCommands, h]

/-- Settles O29: WMARK causes at most two of the three accepted transactions, FLUSH the last; then the stream is all
that was appended (O23). -/
theorem markerImmunity : Obligations.MarkerImmunity := by
  intro code s hs he hacc
  obtain ⟨_, _, _, hc, _⟩ := hs.live he
  have htwo : transactionsFor s [0xFF, code] ≤ 2 := transactionsFor_le_length hc _
  obtain ⟨u, hu, hcompleted⟩ := exec_completes (i := .wmark code) hs he rfl nofun (hacc.mono (Nat.le_succ_of_le htwo))
  obtain ⟨_, _, _, _, _, herr, _⟩ := hcompleted.appends
  have hu_err : u.err = false := herr.trans he
  have hu_inv : u.Inv := exec_keeps_inv hs hu
  have hone : acceptsNext u 1 := acceptsNext.after hcompleted.appends (hacc.mono (Nat.succ_le_succ htwo))
  obtain ⟨t, ht, ht_err⟩ := exec_flush_accepted hu_inv hu_err hone
  have hrun : runCommands [.wmark code, .flush] s = .next t := by
    rw [runCommands_cons_of_next hu, runCommands_cons_of_next ht, runCommands]
  refine ⟨t, hrun, ht_err, ?_⟩
  obtain ⟨hstream, _⟩ := flushDeliversEverythingEmitted u t hu_inv ht ht_err
  rw [hstream, exec_appendedBytes hs rfl hu hu_err, emittedBytes]

end Sys2Proof.Machine
end

section
/-! PROOFS. The family 41_bit_path.md: WBITS and ALIGN by their shifts and in bit strings, what they stuff, and the
round-trip law of bit packing. -/

namespace Sys2Proof.Machine

/-! ### A command that appends (R36, R87) -/

/-- All that a command but FLUSH can do from a state that meets the invariant with `err = 0`: it completes where the sink
accepts the transactions of its bytes, and it always ends so or in a partial flush at one of them, with the accumulator
it wrote before the first. -/
theorem exec_appends_or_fails {i : Instr} {s : State} (hs : s.Inv) (he : s.err = false) (hi : i.wf = true)
    (hf : i ≠ .flush) :
    (acceptsNext s (transactionsFor s (emittedBytes i s)) →
      ∃ t, exec i s = .next t ∧ AppendsBytes s (emittedBytes i s) t ∧
        t.accValue = (accAfter i s).1 ∧ t.accLen = (accAfter i s).2) ∧
    (∀ t, exec i s = .next t →
      (AppendsBytes s (emittedBytes i s) t ∧ t.accValue = (accAfter i s).1 ∧ t.accLen = (accAfter i s).2) ∨
        FailsAppending (setAcc s (accBefore i s).1 (accBefore i s).2) (emittedBytes i s) t) := by
  refine ⟨fun hacc => ?_, fun t ht => ?_⟩
  · obtain ⟨t, ht, hdone⟩ := exec_completes hs he hi hf hacc
    exact ⟨t, ht, hdone.appends, hdone.accValue, hdone.accLen⟩
  · rcases exec_result hs he hi hf ht with hdone | ⟨_, _, _, _, hcut⟩
    · exact .inl ⟨hdone.appends, hdone.accValue, hdone.accLen⟩
    · exact .inr hcut.fails

/-- Where the sink accepts a command's transactions, it leaves pending what R71 and R76 give. -/
theorem exec_accepted_bits {i : Instr} {s : State} (hs : s.Inv) (he : s.err = false) (hi : i.wf = true)
    (hf : i ≠ .flush) (hacc : acceptsNext s (transactionsFor s (emittedBytes i s))) :
    ∃ t, exec i s = .next t ∧ pendingBits t = pendingAfter i s ∧ accumulatorOk t ∧
      AppendsBytes s (emittedBytes i s) t := by
  obtain ⟨ha, _⟩ := hs.live he
  obtain ⟨t, ht, hdone⟩ := exec_completes hs he hi hf hacc
  obtain ⟨hok, hbits⟩ := accAfter_spec hi ha hdone.accValue hdone.accLen
  exact ⟨t, ht, hbits, hok, hdone.appends⟩

/-- Without error a command but FLUSH leaves pending what R71 and R76 give. -/
theorem exec_pendingBits {i : Instr} {s t : State} (hs : s.Inv) (hi : i.wf = true) (hf : i ≠ .flush)
    (h : exec i s = .next t) (ht : t.err = false) : pendingBits t = pendingAfter i s := by
  have he := exec_err_false h ht
  obtain ⟨ha, _⟩ := hs.live he
  rcases exec_result hs he hi hf h with hdone | ⟨_, _, _, _, hcut⟩
  · exact (accAfter_spec hi ha hdone.accValue hdone.accLen).2
  · rw [hcut.result] at ht
    cases ht

/-! ### WBITS (R70, R71) -/

theorem exec_wbits_merge {len : BitVec 5} {data : Half} {s : State} (he : s.err = false)
    (hlen : legalLength len = true) (h : s.accLen + len.toNat < 16) :
    exec (.wbits len data) s =
      .next (setAcc s
        (BitVec.ofNat 16 (s.accValue.toNat ||| codeOperand len data <<< (16 - (s.accLen + len.toNat))))
        (s.accLen + len.toNat)) := by
  rw [exec_wbits, if_pos hlen, runCommand_live he, writeBits_merge h, Progress.done_outcome]

/-- Settles O30: below 16 bits the merge is the whole command; from 16 bits on WBITS is the command that appends the
joined word's two stuffed bytes. -/
theorem wbitsPacksTheCode : Obligations.WbitsPacksTheCode := by
  refine ⟨fun w hop hrsv => ?_, ?_⟩
  · obtain ⟨_, _, _, hwbits, _⟩ := decodeReadsOpAndOperands w hrsv
    exact hwbits hop
  rintro len data s _ _ _ hs he hmin hmax rfl rfl rfl
  have hlen : legalLength len = true := (legalLength_iff len).mpr ⟨hmin, hmax⟩
  obtain ⟨ha, _⟩ := hs.live he
  obtain ⟨haccepts, hcases⟩ := exec_appends_or_fails (i := .wbits len data) hs he hlen nofun
  rw [← codeOperand_eq]
  refine ⟨exec_wbits_merge he hlen, fun h16 => ?_, fun t h16 => ?_⟩
  · rw [emittedBytes_wbits ha h16, accAfter, if_neg (Nat.not_lt.mpr h16)] at haccepts
    exact haccepts
  · rw [emittedBytes_wbits ha h16, accAfter, if_neg (Nat.not_lt.mpr h16)] at hcases
    exact hcases t

/-- Settles O31: `S` is the joined bit stream, whose length decides both what is appended and what stays pending; with
nothing to append no transaction is made. -/
theorem wbitsIsConcatenationOfBitStrings : Obligations.WbitsIsConcatenationOfBitStrings := by
  rintro len data s _ hs he hmin hmax rfl
  have hlen : legalLength len = true := (legalLength_iff len).mpr ⟨hmin, hmax⟩
  obtain ⟨_, _, _, hc, _⟩ := hs.live he
  have hexec := exec_accepted_bits (i := .wbits len data) hs he hlen nofun
  rw [bitstr_mod]
  change ((joinedBits len data s).length < 16 → _) ∧ (16 ≤ (joinedBits len data s).length → _)
  refine ⟨fun hshort => ?_, fun h16 => ?_⟩
  · rw [emittedBytes, pendingAfter, if_neg (Nat.not_le.mpr hshort), if_neg (Nat.not_le.mpr hshort)] at hexec
    have hnone : transactionsFor s [] ≤ 0 := transactionsFor_le_length hc []
    exact hexec fun j hj => absurd hj (by omega)
  · rw [emittedBytes, pendingAfter, if_pos h16, if_pos h16] at hexec
    exact hexec

/-! ### ALIGN (R74–R78) -/

/-- The padded byte of R75: the pending bits in the accumulator's high byte, one-bits below them. -/
theorem paddedAcc_high (s : State) :
    BitVec.ofNat 8 ((paddedAcc s).toNat / 256) =
      BitVec.ofNat 8 (s.accValue.toNat / 256 ||| (2 ^ (8 - s.accLen) - 1)) := by
  have hor : (s.accValue.toNat ||| (2 ^ (8 - s.accLen) - 1) <<< 8) / 256 =
      s.accValue.toNat / 256 ||| (2 ^ (8 - s.accLen) - 1) := by
    rw [← Nat.shiftRight_eq_div_pow _ 8, Nat.shiftRight_or_distrib, Nat.shiftLeft_shiftRight,
      Nat.shiftRight_eq_div_pow]
  rw [← hor, paddedAcc, BitVec.toNat_ofNat]
  apply BitVec.eq_of_toNat_eq
  rw [BitVec.toNat_ofNat, BitVec.toNat_ofNat]
  omega

/-- Eight one-bits below the pending byte leave it as it is and make a byte `0xFF` (R75). -/
theorem or_ones_8 (v : Nat) : (v ||| (2 ^ 8 - 1)) / 256 = v / 256 ∧ BitVec.ofNat 8 (v ||| (2 ^ 8 - 1)) = 0xFF := by
  constructor
  · rw [← Nat.shiftRight_eq_div_pow _ 8, Nat.shiftRight_or_distrib, Nat.shiftRight_eq_div_pow]
    exact Nat.or_zero _
  · rw [BitVec.ofNat_or]
    exact BitVec.or_allOnes

/-- The table of R75. -/
theorem emittedBytes_align {s : State} (ha : accumulatorOk s) :
    emittedBytes .align s =
      (if s.accLen = 0 then [0xFF, 0x00]
      else if s.accLen ≤ 7 then
        stuffed [BitVec.ofNat 8 (s.accValue.toNat / 256 ||| (2 ^ (8 - s.accLen) - 1))]
      else if s.accLen = 8 then stuffed [BitVec.ofNat 8 (s.accValue.toNat / 256)] ++ [0xFF, 0x00]
      else
        stuffed [BitVec.ofNat 8 ((s.accValue.toNat ||| (2 ^ (16 - s.accLen) - 1)) / 256),
          BitVec.ofNat 8 (s.accValue.toNat ||| (2 ^ (16 - s.accLen) - 1))]) := by
  split_ifs with h0 h7 h8
  · have hzero : s.accValue.toNat = 0 := by
      obtain ⟨_, hlow⟩ := ha
      rw [h0, Nat.mod_eq_of_lt s.accValue.isLt] at hlow
      exact hlow
    rw [emittedBytes_align_short ha (by omega), paddedAcc_high, hzero, h0]
    decide
  · rw [emittedBytes_align_short ha h7, paddedAcc_high]
  · obtain ⟨hhigh, hlow⟩ := or_ones_8 s.accValue.toNat
    rw [emittedBytes_align_long ha (by omega), h8, hhigh, hlow]
    exact stuffed_append [_] [0xFF]
  · exact emittedBytes_align_long ha (by omega)

theorem length_le_stuffed_length (bytes : List Byte) : bytes.length ≤ (stuffed bytes).length := by
  induction bytes with
  | nil => exact Nat.zero_le _
  | cons b rest ih =>
    have hb : 1 ≤ (stuffed [b]).length := by
      unfold stuffed
      rw [List.flatMap_singleton]
      split <;> simp
    rw [← List.singleton_append, stuffed_append, List.length_append, List.length_append, List.length_singleton]
    omega

theorem paddedBits_length (s : State) : (paddedBits s).length = s.accLen + (8 - s.accLen % 8) := by
  simp [paddedBits]

/-- ALIGN always sends a byte, the pending bits being padded with one-bits to at least one (R76, R77). -/
theorem one_le_emittedBytes_align_length (s : State) : 1 ≤ (emittedBytes .align s).length := by
  refine Nat.le_trans ?_ (length_le_stuffed_length (bitsToBytes (paddedBits s)))
  rw [bitsToBytes_length, paddedBits_length]
  omega

/-- ALIGN's internal WBITS reaches 16 bits exactly where a whole byte was pending (R74, R75). -/
theorem combinedLength_align {n : Nat} (h : n ≤ 15) :
    combinedLength n (8 - n % 8) = if n ≤ 7 then -8 else 0 := by
  unfold combinedLength Config.accWidth
  split <;> omega

/-- Settles O34: ALIGN is the command that appends the bytes of R75's table, after the merge of R75 where at most 7 bits
are pending. -/
theorem alignByThePendingLength : Obligations.AlignByThePendingLength := by
  refine ⟨fun w hop hrsv => ?_, fun s bytes hs he hbytes => ?_⟩
  · obtain ⟨_, _, _, _, halign, _⟩ := decodeReadsOpAndOperands w hrsv
    exact halign hop
  obtain ⟨ha, _⟩ := hs.live he
  rw [← emittedBytes_align ha] at hbytes
  subst hbytes
  obtain ⟨haccepts, hcases⟩ := exec_appends_or_fails (i := .align) hs he rfl nofun
  refine ⟨one_le_emittedBytes_align_length s, emittedBytes_length_le .align ha, combinedLength_align ha.1,
    fun hacc => ?_, fun t ht => ?_⟩
  · obtain ⟨t, ht, happends, hvalue, hlen⟩ := haccepts hacc
    exact ⟨t, ht, happends, hlen, hvalue⟩
  rcases hcases t ht with ⟨happends, hvalue, hlen⟩ | hfails
  · exact .inl ⟨happends, hlen, hvalue⟩
  · by_cases h7 : s.accLen ≤ 7
    · rw [accBefore, if_pos h7] at hfails
      exact .inr (.inl ⟨h7, hfails⟩)
    · rw [accBefore, if_neg h7] at hfails
      exact .inr (.inr ⟨by omega, hfails⟩)

/-- Settles O35: the padded bit stream is what ALIGN emits, and nothing is pending after it. -/
theorem alignPadsWithOneBits : Obligations.AlignPadsWithOneBits := by
  rintro s _ hs he rfl hacc
  obtain ⟨t, ht, hbits, _, happends⟩ := exec_accepted_bits (i := .align) hs he rfl nofun hacc
  exact ⟨t, ht, happends, hbits⟩

/-! ### Bytes and their bits (R40) -/

theorem bitstr_bitsValue (bits : List Bool) : bitstr (bitsValue bits) bits.length = bits := by
  induction bits using List.reverseRecOn with
  | nil => rfl
  | append_singleton bits b ih =>
    have hhalf : (2 * bitsValue bits + b.toNat) / 2 = bitsValue bits := by
      have := Bool.toNat_lt b
      omega
    have hlast : (2 * bitsValue bits + b.toNat).testBit 0 = b := by
      cases b <;> simp [Nat.add_mod]
    rw [bitsValue_concat, List.length_append, List.length_singleton, bitstr_succ, hhalf, hlast, ih]

/-- The byte of an 8-bit string has these bits. -/
theorem bitstr_byte_of_bits {bits : List Bool} (h : bits.length = 8) :
    bitstr (BitVec.ofNat 8 (bitsValue bits)).toNat 8 = bits := by
  rw [BitVec.toNat_ofNat, bitstr_mod, ← h, bitstr_bitsValue]

/-- Whole bytes hold all the bits they were made of. -/
theorem bytesToBits_bitsToBytes {bits : List Bool} (h : bits.length % 8 = 0) :
    bytesToBits (bitsToBytes bits) = bits := by
  have hfirst : ∀ n, 8 * n ≤ bits.length →
      ((List.range n).map fun i => BitVec.ofNat 8 (bitsValue ((bits.drop (8 * i)).take 8))).flatMap
        (fun b : Byte => bitstr b.toNat 8) = bits.take (8 * n) := by
    intro n hn
    induction n with
    | zero => simp
    | succ n ih =>
      have hchunk : ((bits.drop (8 * n)).take 8).length = 8 := by
        rw [List.length_take, List.length_drop]
        omega
      rw [List.range_succ, List.map_append, List.flatMap_append, ih (by omega), List.map_singleton,
        List.flatMap_singleton, bitstr_byte_of_bits hchunk, Nat.mul_succ, List.take_add]
  rw [bytesToBits, bitsToBytes, hfirst _ (Nat.mul_div_le _ _), List.take_of_length_le (by omega)]

theorem bytesToBits_append (x y : List Byte) : bytesToBits (x ++ y) = bytesToBits x ++ bytesToBits y :=
  List.flatMap_append

/-! ### Stuffing and destuffing (R72, R73) -/

theorem destuff_stuffed (bytes : List Byte) : destuff (stuffed bytes) = bytes := by
  induction bytes with
  | nil => rfl
  | cons b rest ih =>
    rw [← List.singleton_append, stuffed_append]
    by_cases hb : b = 0xFF
    · subst hb
      exact congrArg _ ih
    · have hone : stuffed [b] = [b] := by rw [stuffed, List.flatMap_singleton, if_neg hb]
      rw [hone, List.singleton_append, List.singleton_append, destuff, destuffFrom, decide_eq_false hb]
      exact congrArg _ ih

/-! ### The bit path packs the bit stream (R71, R73, R76) -/

/-- The commands whose bytes are packed from the bit stream and stuffed. -/
inductive BitPath : Instr → Prop where
  | wbits (len : BitVec 5) (data : Half) : BitPath (.wbits len data)
  | align : BitPath .align

/-- The bits a command takes from the front of the bit stream and sends out as whole bytes. -/
def packedBits : Instr → State → List Bool
  | .wbits len data, s => if 16 ≤ (joinedBits len data s).length then (joinedBits len data s).take 16 else []
  | .align, s => paddedBits s
  | .wbyte _, _ => []
  | .wword _, _ => []
  | .wmark _, _ => []
  | .flush, _ => []

namespace BitPath

theorem ne_flush {i : Instr} (h : BitPath i) : i ≠ .flush := by rintro rfl; cases h

theorem emittedBytes_eq {i : Instr} (h : BitPath i) (s : State) :
    emittedBytes i s = stuffed (bitsToBytes (packedBits i s)) := by
  cases h with
  | wbits len data =>
    rw [emittedBytes, packedBits]
    split <;> rfl
  | align => rfl

theorem packedBits_length {i : Instr} (h : BitPath i) (s : State) : (packedBits i s).length % 8 = 0 := by
  cases h with
  | wbits len data =>
    rw [packedBits]
    split
    · rw [List.length_take]
      omega
    · rfl
  | align =>
    rw [packedBits, paddedBits_length]
    omega

/-- The bit stream is what goes out, then what stays pending. -/
theorem packedBits_append_pendingAfter {i : Instr} (h : BitPath i) (s : State) :
    packedBits i s ++ pendingAfter i s = pendingBits s ++ addedBits i s := by
  cases h with
  | wbits len data =>
    have hjoined : joinedBits len data s = pendingBits s ++ addedBits (.wbits len data) s := by
      rw [addedBits, bitstr_mod, joinedBits]
    rw [packedBits, pendingAfter, ← hjoined]
    split
    · exact List.take_append_drop 16 _
    · exact List.nil_append _
  | align => rw [packedBits, pendingAfter, addedBits, paddedBits, pendingBits_length, List.append_nil]

/-- A command of the bit path without error appends the stuffed bytes of the bit stream, whose bits followed by those
left pending are the pending bits and the command's own. -/
theorem exec_packs {i : Instr} (h : BitPath i) {s t : State} (hs : s.Inv) (hi : i.wf = true)
    (hexec : exec i s = .next t) (ht : t.err = false) :
    ∃ packed, appendedBytes t = appendedBytes s ++ stuffed packed ∧
      bytesToBits packed ++ pendingBits t = pendingBits s ++ addedBits i s := by
  refine ⟨bitsToBytes (packedBits i s), ?_, ?_⟩
  · rw [exec_appendedBytes hs hi hexec ht, h.emittedBytes_eq]
  · rw [bytesToBits_bitsToBytes (h.packedBits_length s), exec_pendingBits hs hi h.ne_flush hexec ht,
      h.packedBits_append_pendingAfter]

end BitPath

/-- Settles O32: a command without error appends `emittedBytes`, which are raw on the byte path and packed and stuffed
on the bit path (`BitPath.exec_packs`). -/
theorem onlyTheBitPathStuffs : Obligations.OnlyTheBitPathStuffs := by
  intro i s t hs hi _ hexec ht
  have happended := exec_appendedBytes hs hi hexec ht
  have hpacks : BitPath i → ∃ packed : List Byte, appendedBytes t = appendedBytes s ++ stuffed packed ∧
      destuff (stuffed packed) = packed ∧ bytesToBits packed ++ pendingBits t = pendingBits s ++ addedBits i s :=
    fun hbit => by
      obtain ⟨packed, hbytes, hbits⟩ := hbit.exec_packs hs hi hexec ht
      exact ⟨packed, hbytes, destuff_stuffed packed, hbits⟩
  refine ⟨?_, ?_, ?_, ?_⟩
  · rintro b rfl
    exact happended
  · rintro w rfl
    rw [emittedBytes, ← highByte_eq, ← lowByte_eq] at happended
    exact happended
  · rintro code rfl
    exact happended
  · rintro (⟨len, data, rfl⟩ | rfl)
    · exact hpacks (.wbits len data)
    · exact hpacks .align

/-! ### A run of WBITS commands (R73) -/

theorem exec_wbits_accLen {len : BitVec 5} {data : Half} {s t : State} (hs : s.Inv)
    (hlen : legalLength len = true) (h : exec (.wbits len data) s = .next t) (ht : t.err = false) :
    t.accLen = (s.accLen + len.toNat) % 16 := by
  obtain ⟨hle, hemit, hmerge, _⟩ :=
    pendingLengthAfterEachCommand (.wbits len data) s t hs hlen (exec_err_false h ht) h ht
  by_cases h16 : 16 ≤ s.accLen + len.toNat
  · have := hemit len data rfl h16
    omega
  · have := hmerge len data rfl (by omega)
    omega

/-- The round-trip law from any pending bits: by induction on the run, each command packing its code. -/
theorem runCommands_wbits_packs {codes : List (BitVec 5 × Half)} {s t : State} (hs : s.Inv)
    (hlen : ∀ c ∈ codes, legalLength c.1 = true)
    (h : runCommands (codes.map fun c => .wbits c.1 c.2) s = .next t) (ht : t.err = false) :
    ∃ packed, appendedBytes t = appendedBytes s ++ stuffed packed ∧
      bytesToBits packed ++ pendingBits t =
        pendingBits s ++ codes.flatMap (fun c => bitstr (c.2.toNat % 2 ^ c.1.toNat) c.1.toNat) ∧
      t.accLen = (s.accLen + (codes.map fun c => c.1.toNat).sum) % 16 := by
  induction codes generalizing s with
  | nil =>
    obtain rfl : s = t := Host.Outcome.next.inj h
    obtain ⟨ha, _⟩ := hs.live ht
    exact ⟨[], (List.append_nil _).symm, (List.append_nil _).symm,
      (Nat.mod_eq_of_lt (Nat.lt_succ_of_le ha.1)).symm⟩
  | cons c rest ih =>
    obtain ⟨u, hu, hrest⟩ := runCommands_cons h
    have hu_err := runCommands_err_false hrest ht
    have hc : legalLength c.1 = true := hlen c List.mem_cons_self
    obtain ⟨packed, hbytes, hbits⟩ := (BitPath.wbits c.1 c.2).exec_packs hs hc hu hu_err
    obtain ⟨packed', hbytes', hbits', hacc'⟩ :=
      ih (exec_keeps_inv hs hu) (fun d hd => hlen d (List.mem_cons_of_mem c hd)) hrest
    refine ⟨packed ++ packed', ?_, ?_, ?_⟩
    · rw [hbytes', hbytes, stuffed_append, List.append_assoc]
    · rw [bytesToBits_append, List.append_assoc, hbits', ← List.append_assoc, hbits, List.append_assoc,
        List.flatMap_cons]
      rfl
    · rw [hacc', exec_wbits_accLen hs hc hu hu_err, Nat.mod_add_mod, List.map_cons, List.sum_cons, Nat.add_assoc]

/-- Settles O33: with nothing pending at the start the packed bits and those left are the codes' alone, and destuffing
undoes the stuffing. -/
theorem bitPackingRoundTrip : Obligations.BitPackingRoundTrip := by
  intro codes s t hs h0 hlen h ht
  have hlegal : ∀ c ∈ codes, legalLength c.1 = true := fun c hc => (legalLength_iff c.1).mpr (hlen c hc)
  obtain ⟨packed, hbytes, hbits, hacc⟩ := runCommands_wbits_packs hs hlegal h ht
  have hnone : pendingBits s = [] := List.eq_nil_of_length_eq_zero (by rw [pendingBits_length, h0])
  refine ⟨stuffed packed, hbytes, ?_, ?_⟩
  · rw [destuff_stuffed, hbits, hnone, List.nil_append]
  · rw [pendingBits_length, hacc, h0, Nat.zero_add]

end Sys2Proof.Machine
end

section
/-! PROOFS. The family 60_exceptions.md: the order of the decoder's checks, what an illegal word leaves alone, the idle
block, and how a partial flush ends a command: its transactions, its bytes, its accumulator, and the causes of an
error. -/

namespace Sys2Proof.Machine

/-! ### The decoder's checks, the idle block and illegal words (R88, R91, R99) -/

/-- Settles O4: one lemma per check. -/
theorem decodeChecksInOrder : Obligations.DecodeChecksInOrder := fun _ =>
  ⟨decode_of_rsv_ne_zero, decode_of_reserved_op, fun hrsv hop hlen =>
    decode_of_bad_length hrsv hop ((legalLength_eq_false_iff _).2 hlen)⟩

/-- Settles O9: with no event, `portStep` answers the state it was given. -/
theorem idleBlockHoldsItsState : Obligations.IdleBlockHoldsItsState := by
  intro s hq
  rw [step, portStep, hq]

/-- Settles O47: the word runs, and `Execute` answers `raiseError`, which writes the three error fields alone. -/
theorem illegalCommandsChangeTheErrorFieldsAlone : Obligations.IllegalCommandsChangeTheErrorFieldsAlone := by
  intro s w rest e he hb hq hd
  have hstep : step s = .next (raiseError .illegalCommand w (dropEvent s)) := by
    rw [step_of_command hq hb, execute_error (s := dropEvent s) he hd]
  exact ⟨_, hstep, rfl, rfl, rfl, rfl, rfl, rfl, rfl, rfl, rfl⟩

/-- Only words of well-formed commands are legal (R56). -/
theorem wf_of_decode {w : Word} {i : Instr} (h : decode w = .ok i) : i.wf = true := by
  obtain ⟨_, hlegal⟩ := illegalWordsAreExactlyThoseListed w State.reset rfl
  obtain ⟨j, hj, hd, _⟩ := hlegal fun hillegal => by
    obtain ⟨e, hd⟩ := decode_error_of_illegal hillegal
    cases h.symm.trans hd
  cases h.symm.trans hd
  exact hj

/-! ### A command that a partial flush ends (R86, R87, R92) -/

/-- The command `i` has come from `s` to `u`, where its flush turns out partial: the transactions `earlier` were
complete, a first part of its bytes was appended, and the accumulator is the one it has while it appends. FLUSH gets
there with nothing done; any other command by the byte that filled the buffer. -/
structure ReachesPartialFlush (i : Instr) (s : State) (earlier : List Transaction) (u : State) : Prop where
  log : u.sinkLog = s.sinkLog ++ earlier
  complete : ∀ y ∈ earlier, y.accepted = y.request.length
  sessionStart : u.sessionStart = s.sessionStart
  appended : ∃ j, j ≤ (emittedBytes i s).length ∧ (i ≠ .flush → 1 ≤ j) ∧
    appendedBytes u = appendedBytes s ++ (emittedBytes i s).take j
  accValue : u.accValue = (accBefore i s).1
  accLen : u.accLen = (accBefore i s).2
  full : i ≠ .flush → u.cursor = u.capacity
  partialAnswer : sinkAnswer u (heldBytes u) < u.cursor

theorem flush_reachesPartialFlush {s : State} (hk : sinkAnswer s (heldBytes s) < s.cursor) :
    ReachesPartialFlush .flush s [] s where
  log := (List.append_nil _).symm
  complete := nofun
  sessionStart := rfl
  appended := ⟨0, Nat.le_refl _, nofun, (List.append_nil _).symm⟩
  accValue := rfl
  accLen := rfl
  full := nofun
  partialAnswer := hk

theorem CutShort.reachesPartialFlush {i : Instr} {s t u : State} {before after : List Byte} {b : Byte}
    (h : CutShort i s t before b after u) (hstart : s.sessionStart ≤ s.sinkLog.length) :
    ReachesPartialFlush i s (newTransactions s before) (storeByte u b) where
  log := h.appends.1
  complete y hy := of_decide_eq_true (newTransactions_complete hy)
  sessionStart := by
    obtain ⟨_, _, _, _, _, _, _, _, _, _, _, hsession⟩ := h.appends
    exact hsession
  appended := by
    refine ⟨before.length + 1, ?_, fun _ => Nat.le_add_left _ _, ?_⟩
    · rw [h.split]
      simp
    · rw [appendedBytes_storeByte h.wf, appendedBytes_of_appends hstart h.appends, h.split,
        List.take_length_add_append, List.append_assoc]
      rfl
  accValue := h.accValue
  accLen := h.accLen
  full _ := h.full
  partialAnswer := by
    rw [storeByte_cursor, h.full]
    exact h.partialAnswer

/-- A legal command that runs and ends with `err = 1` was ended by a partial flush. -/
theorem exec_error_result {i : Instr} {s t : State} (hs : s.Inv) (hi : i.wf = true) (he : s.err = false)
    (h : exec i s = .next t) (ht : t.err = true) :
    ∃ earlier u, ReachesPartialFlush i s earlier u ∧ t = failedFlush u := by
  obtain ⟨_, _, _, _, hstart⟩ := hs.live he
  by_cases hf : i = .flush
  · subst hf
    rcases exec_flush_result hs he h with ⟨_, rfl⟩ | ⟨_, hk, rfl⟩ | ⟨_, _, rfl⟩
    · exact absurd (he.symm.trans ht) (by decide)
    · exact ⟨[], s, flush_reachesPartialFlush hk, rfl⟩
    · exact absurd (he.symm.trans ht) (by decide)
  · rcases exec_result hs he hi hf h with hdone | ⟨before, b, _, u, hcut⟩
    · obtain ⟨_, _, _, _, _, herr, _⟩ := hdone.appends
      exact absurd (he.symm.trans (herr.symm.trans ht)) (by decide)
    · exact ⟨_, _, hcut.reachesPartialFlush hstart, hcut.result⟩

namespace ReachesPartialFlush

variable {i : Instr} {s u : State} {earlier : List Transaction}

theorem sessionStart_le (h : ReachesPartialFlush i s earlier u) (hstart : s.sessionStart ≤ s.sinkLog.length) :
    u.sessionStart ≤ u.sinkLog.length := by
  rw [h.sessionStart, h.log, List.length_append]
  omega

/-- The failed flush keeps the bytes held, so it appends none and takes none back (R87). -/
theorem appendedBytes_failedFlush (h : ReachesPartialFlush i s earlier u)
    (hstart : s.sessionStart ≤ s.sinkLog.length) :
    ∃ j, j ≤ (emittedBytes i s).length ∧ (i ≠ .flush → 1 ≤ j) ∧
      appendedBytes (failedFlush u) = appendedBytes s ++ (emittedBytes i s).take j := by
  rw [Machine.appendedBytes_failedFlush (h.sessionStart_le hstart) h.partialAnswer]
  exact h.appended

/-- The sink stream gains the complete transactions and the accepted first part of the last one (R38, R87). -/
theorem sinkStream_failedFlush (h : ReachesPartialFlush i s earlier u) (hstart : s.sessionStart ≤ s.sinkLog.length) :
    sinkStream (failedFlush u) = sinkStream s ++ earlier.flatMap Transaction.request ++
      (heldBytes u).take (sinkAnswer u (heldBytes u)) := by
  have hreached : session u = session s ++ earlier := session_of_log hstart h.log h.sessionStart
  have hlast : session (failedFlush u) = session u ++ [⟨heldBytes u, sinkAnswer u (heldBytes u)⟩] :=
    session_of_log (h.sessionStart_le hstart) rfl rfl
  have hearlier : earlier.flatMap Transaction.acceptedBytes = earlier.flatMap Transaction.request :=
    List.flatMap_congr fun y hy => by rw [Transaction.acceptedBytes, h.complete y hy, List.take_length]
  rw [sinkStream, hlast, hreached, List.flatMap_append, List.flatMap_append, hearlier, List.flatMap_singleton]
  rfl

end ReachesPartialFlush

/-- In the error state a whole list of commands is discarded (R90). -/
theorem runCommands_discarded {s : State} (he : s.err = true) (commands : List Instr) :
    runCommands commands s = .next s := by
  induction commands with
  | nil => rfl
  | cons i rest ih => rw [runCommands_cons_of_next (exec_discarded i he), ih]

/-- Settles O40: the fields `failedFlush` leaves after what led to the partial flush, whose bytes are those held. -/
theorem partialWriteEndsTheCommand : Obligations.PartialWriteEndsTheCommand := by
  intro i s t hs hi he h ht
  obtain ⟨_, _, _, _, hstart⟩ := hs.live he
  obtain ⟨earlier, u, hu, rfl⟩ := exec_error_result hs hi he h ht
  have hlog : (failedFlush u).sinkLog = s.sinkLog ++ earlier ++ [⟨heldBytes u, sinkAnswer u (heldBytes u)⟩] :=
    congrArg (· ++ _) hu.log
  have hpartial : sinkAnswer u (heldBytes u) < (heldBytes u).length := by
    rw [heldBytes_length]
    exact hu.partialAnswer
  exact ⟨rfl, earlier, _, hlog, hu.complete, hpartial, rfl, rfl, (heldBytes_length u).symm, hu.full,
    hu.sinkStream_failedFlush hstart, hu.appendedBytes_failedFlush hstart, runCommands_discarded ht⟩

/-! ### The accumulator after an error (R92) -/

theorem accBefore_of_not_merging {i : Instr} {s : State} (h : i ≠ .align ∨ 8 ≤ s.accLen) :
    accBefore i s = (s.accValue, s.accLen) := by
  cases i with
  | align => exact if_neg (Nat.not_le.mpr (h.resolve_left (absurd rfl)))
  | wbyte b => rfl
  | wword w => rfl
  | wmark code => rfl
  | wbits len data => rfl
  | flush => rfl

theorem accBefore_align_of_short {s : State} (h : s.accLen ≤ 7) : accBefore .align s = (paddedAcc s, 8) := if_pos h

/-- Settles O41: the failed flush leaves the accumulator the command appends with, which only ALIGN's merge changes. -/
theorem accumulatorAfterAnError : Obligations.AccumulatorAfterAnError := by
  intro i s t hs hi he h ht
  obtain ⟨_, _, _, _, hstart⟩ := hs.live he
  obtain ⟨_, u, hu, rfl⟩ := exec_error_result hs hi he h ht
  have hvalue : (failedFlush u).accValue = (accBefore i s).1 := hu.accValue
  have hlen : (failedFlush u).accLen = (accBefore i s).2 := hu.accLen
  refine ⟨?_, fun hkept => ?_, ?_⟩
  · obtain ⟨j, hle, _, happended⟩ := hu.appendedBytes_failedFlush hstart
    exact ⟨j, hle, happended⟩
  · rw [accBefore_of_not_merging hkept] at hvalue hlen
    exact ⟨hvalue, hlen⟩
  · rintro rfl h7
    rw [accBefore_align_of_short h7] at hvalue hlen
    exact ⟨hlen, hvalue⟩

/-! ### The causes of an error (R85) -/

/-- Settles O38: of the events a step can take only a command word raises the flag, and it is refused by the decoder or
stands for a well-formed command, of which O40 speaks. -/
theorem errorsHaveTheListedCauses : Obligations.ErrorsHaveTheListedCauses := by
  intro s t hs h he ht
  rcases step_next h with ⟨_, rfl⟩ | ⟨_, _, rfl⟩ | ⟨w, rest, hq, _, hw⟩
  · exact absurd (he.symm.trans ht) (by decide)
  · simp at ht
  · refine ⟨w, rest, hq, ?_⟩
    rcases execute_next hw with ⟨herr, _⟩ | ⟨_, i, hd, hi⟩ | ⟨_, e, hd, rfl⟩
    · exact absurd (he.symm.trans herr) (by decide)
    · obtain ⟨hcode, earlier, x, hlog, _, hpartial, hinfo, _⟩ :=
        partialWriteEndsTheCommand i (dropEvent s) t hs.dropEvent (wf_of_decode hd) he hi ht
      exact .inr ⟨⟨i, hd⟩, hcode, earlier, x, hlog, hpartial, hinfo⟩
    · exact .inl ⟨⟨e, hd⟩, rfl, rfl, rfl⟩

end Sys2Proof.Machine
end

section
/-! PROOFS. The family 70_reset_and_hazards.md: what the reset event leaves, the events the port refuses, and how many
bytes a command of the bit path appends. -/

namespace Sys2Proof.Machine

/-! ### The bytes of a bit-path command (R111) -/

/-- Settles O36: a command without error appends `emittedBytes`, at most 4 bytes for every command and at least one for
ALIGN. -/
theorem bitPathAppendsAtMostFourBytes : Obligations.BitPathAppendsAtMostFourBytes := by
  intro i s t hs hi he h ht
  obtain ⟨hacc, _⟩ := hs.live he
  have happended : appendedBytes t = appendedBytes s ++ emittedBytes i s := exec_appendedBytes hs hi h ht
  have hmost : (emittedBytes i s).length ≤ 4 := emittedBytes_length_le i hacc
  refine ⟨fun _ => ⟨_, happended, hmost⟩, ?_⟩
  rintro rfl
  exact ⟨_, happended, one_le_emittedBytes_align_length s, hmost⟩

/-! ### The reset event (R100, R101) -/

/-- The status words are read from the fields that reset writes, so they are those of the reset state (R31). -/
theorem statusWords_resetEvent (s : State) :
    statusWord (resetEvent s) = 0 ∧ levelWord (resetEvent s) = 0 ∧ errInfoWord (resetEvent s) = 0 := by
  obtain ⟨_, _, _, _, _, _, hwords⟩ := resetStateHasTheResetValues
  exact hwords

/-- Settles O10: the step is `resetEvent`, which writes the values of R31 and no transaction. -/
theorem resetEventReinitialises : Obligations.ResetEventReinitialises := by
  intro s rest hq
  obtain ⟨hstatus, hlevel, hinfo⟩ := statusWords_resetEvent (dropEvent s)
  exact ⟨_, step_of_reset hq, rfl, rfl, rfl, rfl, rfl, rfl, hstatus, hlevel, hinfo, rfl⟩

/-! ### The events without a meaning (R102, R103, R114) -/

/-- A step with an event next on the port handles it, taken from the queue (R12, R114). -/
theorem step_of_event {e : HostEvent} {rest : List HostEvent} {s : State} (hq : s.hostQueue = e :: rest) :
    step s = handleEvent exec e (dropEvent s) := by
  rw [step, portStep, hq]

/-- Settles O13: the step is the port's answer to the event, by cases on the event. -/
theorem unmodelledRunsAreRefused : Obligations.UnmodelledRunsAreRefused := by
  intro s w rest
  refine ⟨fun hb hq => ?_, fun hq => ?_, fun hq => ?_⟩
  · rw [step_of_event hq, handleEvent, dropEvent_booted, hb, if_neg Bool.false_ne_true]
  · rw [step_of_event hq, handleEvent]
  · rw [step_of_event hq, handleEvent]

end Sys2Proof.Machine
end
